-- ==== Sys2Proof/Word.lean ====
section
/-! DEFINITION. The word types of the block (spec R5, R8): every value is an unsigned integer of a stated width. -/

namespace Sys2Proof

/-- A stored cell and a byte access, `BYTE_W` = 8 bits (R5). -/
abbrev Byte := BitVec 8

/-- A bus address, `ADDR_W` = 16 bits (R5, R71). -/
abbrev Addr := BitVec 16

/-- A word access, `WORD_W` = 16 bits (R5, R45). -/
abbrev Word := BitVec 16

/-- The value on the request port `req`, 36 bits (R70, R72). -/
abbrev ReqWord := BitVec 36

end Sys2Proof
end

