-- ==== Sys2Proof/Config.lean ====
section
/-! DEFINITION. The parameters of the block, each with its one value (spec `00_scope.md` R5).
The block leaves no value open, so no constant here is free. The map made of them is `Machine/Map.lean`. -/

namespace Sys2Proof.Config

/-- `ROM_START`, `ROM_END`, `ROM_SIZE`. -/
def romStart : Nat := 0x0000
def romEnd : Nat := 0x7FFF
def romSize : Nat := 32768

/-- `VRAM_START`, `VRAM_END`, `VRAM_SIZE`. -/
def vramStart : Nat := 0x8000
def vramEnd : Nat := 0x9FFF
def vramSize : Nat := 8192

/-- `WRAM_START`, `WRAM_END`, `WRAM_SIZE`. -/
def wramStart : Nat := 0xC000
def wramEnd : Nat := 0xDFFF
def wramSize : Nat := 8192

/-- The largest address of the 16-bit bus space. -/
def addrMax : Nat := 0xFFFF

/-- `OPEN_BUS`: the byte a read with no backing storage returns. -/
def openBus : Byte := 0xFF#8

/-- `DUMP_ROW`: bytes per row of a dump. -/
def dumpRowLen : Nat := 16

/-- `PRINT_LO` and `PRINT_HI`: the printable range, both inclusive. -/
def printLo : Nat := 32
def printHi : Nat := 126

end Sys2Proof.Config
end

