-- ==== Sys2Proof/Syntax.lean ====
section
/-! DEFINITION. The operations of the block: one constructor per row of `spec/opcode_table.json` (spec R74).
A constructor carries exactly the request fields its operation uses (R73; log 14). The operand of `LOAD`
does not fit the word: it is the value on the port `cart` (R82), which State holds. -/

namespace Sys2Proof

inductive Instr where
  /-- `0x0` readByte(addr), R123. -/
  | rdb (addr : Addr)
  /-- `0x1` writeByte(addr, value), R124. -/
  | wrb (addr : Addr) (value : Byte)
  /-- `0x2` readWord(addr), R125. -/
  | rdw (addr : Addr)
  /-- `0x3` writeWord(addr, value), R126. -/
  | wrw (addr : Addr) (value : Word)
  /-- `0x4` the address translator, R101. -/
  | xlt (addr : Addr)
  /-- `0x5` isValidAddress(addr), R150. -/
  | vld (addr : Addr)
  /-- `0x6` regionName(addr), R151. -/
  | rgn (addr : Addr)
  /-- `0x7` dumpRegion(start, end), R161; `last` is the spec's `end`. -/
  | dmp (start last : Addr)
  /-- `0x8` the init operation, R175. -/
  | init
  /-- `0x9` the cleanup operation, R176. -/
  | clr
  /-- `0xA` loadRom, R170. -/
  | load
  /-- The reserved codes `0xB` to `0xF`, R80. -/
  | reservedB
  | reservedC
  | reservedD
  | reservedE
  | reservedF
  deriving DecidableEq, Repr

end Sys2Proof
end

