-- ==== Sys2Proof/WellFormed.lean ====
section
/-! DEFINITION. The checks on what may stand on the request port, from the spec's own words: a request is one
36-bit word (R72), and the reserved codes are presented by nobody (R74, R80). Every field of `Instr` has the exact
width of its request field, so no operand can be out of range. -/

namespace Sys2Proof

/-- One of the eleven operations (R74, R81). The five reserved codes select no operation, and "presented by: nobody".
A reserved code still has its meaning in the machine (R80). -/
def Instr.wellFormed : Instr → Bool
  | .rdb _ => true
  | .wrb _ _ => true
  | .rdw _ => true
  | .wrw _ _ => true
  | .xlt _ => true
  | .vld _ => true
  | .rgn _ => true
  | .dmp _ _ => true
  | .init => true
  | .clr => true
  | .load => true
  | .reservedB => false
  | .reservedC => false
  | .reservedD => false
  | .reservedE => false
  | .reservedF => false

/-- A number that fits the request port: "every request is one 36-bit word" (R72). -/
def wellFormedWord (n : Nat) : Bool := n < 2 ^ 36

end Sys2Proof
end

