-- ==== Sys2Proof/Decode.lean ====
section
/-! DEFINITION. Request words to operations and back (spec `30_encoding.md` R72 to R75, R80, R81).
The decoder is total: all sixteen codes are rows of the table. What is rejected, by name, is a number that is no
36-bit word. The encoder is written from the same table, the fields an operation does not use driven to zero (R73). -/

namespace Sys2Proof

/-- Why a number is no request. -/
inductive DecodeReject where
  /-- It does not fit 36 bits (R72). -/
  | widerThanRequest
  deriving DecidableEq, Repr

/-- The request record `{ op, addr, wdata }` of R72. -/
structure Request where
  op    : BitVec 4
  addr  : Addr
  wdata : Word
  deriving DecidableEq, Repr

/-- `req[35:32]`, `req[31:16]`, `req[15:0]` (R72). -/
def Request.ofWord (w : ReqWord) : Request :=
  { op := w.extractLsb' 32 4, addr := w.extractLsb' 16 16, wdata := w.extractLsb' 0 16 }

/-- `{op, addr, wdata}`, the operation code in the high bits (R9, R72). -/
def Request.toWord (r : Request) : ReqWord := r.op ++ r.addr ++ r.wdata

/-- `wdata[7:0]`, the byte operand of `WRB` (R73). -/
def Request.byteValue (r : Request) : Byte := r.wdata.extractLsb' 0 8

/-- The table of R74 (and R80 for the last five codes). A four-bit code that is none of `0x0` to `0xE` is `0xF`. -/
def Request.select (r : Request) : Instr :=
  match r.op.toNat with
  | 0x0 => .rdb r.addr
  | 0x1 => .wrb r.addr r.byteValue
  | 0x2 => .rdw r.addr
  | 0x3 => .wrw r.addr r.wdata
  | 0x4 => .xlt r.addr
  | 0x5 => .vld r.addr
  | 0x6 => .rgn r.addr
  | 0x7 => .dmp r.addr r.wdata
  | 0x8 => .init
  | 0x9 => .clr
  | 0xA => .load
  | 0xB => .reservedB
  | 0xC => .reservedC
  | 0xD => .reservedD
  | 0xE => .reservedE
  | _   => .reservedF

/-- R75: read `req[35:32]`, look it up in R74, take the fields from their fixed places. -/
def decode (w : ReqWord) : Instr := (Request.ofWord w).select

/-- Decoding any number, rejecting by name what is no request word (R72). -/
def decodeNat (n : Nat) : Except DecodeReject Instr :=
  if wellFormedWord n then .ok (decode (BitVec.ofNat 36 n)) else .error .widerThanRequest

/-- The request record of an operation, unused fields zero (R73, R74). -/
def Instr.request : Instr → Request
  | .rdb a     => ⟨0x0#4, a, 0#16⟩
  | .wrb a v   => ⟨0x1#4, a, v.zeroExtend 16⟩
  | .rdw a     => ⟨0x2#4, a, 0#16⟩
  | .wrw a v   => ⟨0x3#4, a, v⟩
  | .xlt a     => ⟨0x4#4, a, 0#16⟩
  | .vld a     => ⟨0x5#4, a, 0#16⟩
  | .rgn a     => ⟨0x6#4, a, 0#16⟩
  | .dmp a b   => ⟨0x7#4, a, b⟩
  | .init      => ⟨0x8#4, 0#16, 0#16⟩
  | .clr       => ⟨0x9#4, 0#16, 0#16⟩
  | .load      => ⟨0xA#4, 0#16, 0#16⟩
  | .reservedB => ⟨0xB#4, 0#16, 0#16⟩
  | .reservedC => ⟨0xC#4, 0#16, 0#16⟩
  | .reservedD => ⟨0xD#4, 0#16, 0#16⟩
  | .reservedE => ⟨0xE#4, 0#16, 0#16⟩
  | .reservedF => ⟨0xF#4, 0#16, 0#16⟩

/-- The request word of an operation. -/
def encode (i : Instr) : ReqWord := i.request.toWord

/-- The number a table row stands for: bits above `nbits` are zero (log 16). -/
def tableNumber (nbits w : Nat) : Nat := w % 2 ^ nbits

/-- The operation the decoder reads from a table word of `nbits` bits (log 16). -/
def decodeTableWord (nbits w : Nat) : Option Instr :=
  (decodeNat (tableNumber nbits w)).toOption

end Sys2Proof
end

