-- ==== Sys2Proof/Machine/State.lean ====
section
/-! DEFINITION. The state of the block, its ports and its response, as plain data
(spec `10_state.md` R20 to R32, `30_encoding.md` R70, R76 to R83). -/

namespace Sys2Proof.Machine

/-- The storage a bus address can reach: the storage selector of the region table (R2, R103). -/
inductive Bank where
  | rom | vram | wram
  deriving DecidableEq, Repr

/-- The class of an address (R79, R100). Codes 5 to 7 do not exist (U7). -/
inductive Region where
  | rom | vram | wram | unmapped
  /-- Above `0xFFFF`; never the result on the 16-bit port (R71). -/
  | invalid
  deriving DecidableEq, Repr

/-- The error class of a response (R78). Codes 5 to 7 do not exist (U7). -/
inductive ErrClass where
  /-- 0: no error; class (b), unmapped, included. -/
  | noError
  /-- 1, class (c): `WRB` or `WRW` to ROM. -/
  | roViolation
  /-- 2, class (d): `LOAD` with an absent or empty image. -/
  | ioFailure
  /-- 3, class (e): `DMP` with `start > end`. -/
  | badDump
  /-- 4: a reserved op code. -/
  | illegalOp
  deriving DecidableEq, Repr

/-- One item of the dump stream `{ a[15:0], b[7:0], p }` (R83). -/
structure DumpItem where
  a : Addr
  b : Byte
  p : Bool
  deriving DecidableEq, Repr

/-- The response record (R76); log 13 for the enumerated fields. -/
structure Response where
  rdata  : BitVec 16
  hit    : Bool
  region : Region
  offset : BitVec 15
  viol   : BitVec 2
  ok     : Bool
  err    : ErrClass
  dump   : List DumpItem
  deriving DecidableEq, Repr

/-- The value on the port `cart` (R82): the mark `absent`, or a finite sequence of bytes. -/
inductive Cart where
  | absent
  | image (bytes : List Byte)
  deriving DecidableEq, Repr

/-- What the outside presents, one thing at a time (R56, R70; log 1): the pin `rst`, or one request word with the value
then on `cart`. -/
inductive Input where
  | rst
  | op (req : ReqWord) (cart : Cart)
  deriving DecidableEq, Repr

/-- A storage array: the cells that differ from the reset value, by offset (log 8). -/
abbrev Memory := List Host.Cell

/-- The block's whole state: "a record of exactly four fields" (R20). -/
structure Block where
  rom       : Memory
  vram      : Memory
  wram      : Memory
  romLoaded : Bool
  deriving DecidableEq, Repr

/-- The block between its ports. The fields after `block` are the model's own (logs 1, 4, 5). -/
structure State where
  /-- The state of R20. -/
  block  : Block
  /-- What the outside will present, oldest first (R55). -/
  inputs : List Input
  /-- The value on `cart` during the operation now running (R82). -/
  cart   : Cart
  /-- The response the latest step gave; nothing reads it (R31). -/
  rsp    : Option Response
  deriving DecidableEq, Repr

/-- The reasons to stop with a fault: none. "The block has no exceptions, no interrupts and no traps" (R198, R199);
an error is a flag of a response and the operation completes. Nothing raises one; safe. -/
inductive Fault where
  deriving DecidableEq, Repr

/-- The reasons to refuse. -/
inductive Refusal where
  /-- Raised only by an arm of `exec` whose instruction has no meaning yet; no arm is so now. Safe. -/
  | notModelled (mnemonic : String)
  deriving DecidableEq, Repr

/-- The reset state of R32: every cell `0x00`, `romLoaded` 0. -/
def Block.reset : Block := { rom := [], vram := [], wram := [], romLoaded := false }

/-- The machine right after reset, nothing presented yet (R32; logs 1, 4, 5). -/
def State.reset : State := { block := Block.reset, inputs := [], cart := .absent, rsp := none }

end Sys2Proof.Machine
end

