-- ==== Sys2Proof/Machine/Map.lean ====
section
/-! DEFINITION. The sub-block `address_decoder` (spec R2, R40, R100 to R104): the address map as a table of rows
(R103) and the translator over it. Combinational: it reads no state (R102). -/

namespace Sys2Proof.Machine

/-- A row `(start, end, storage-selector)` of the region table (R103). -/
structure MapRow where
  first : Nat
  last  : Nat
  bank  : Bank
  deriving DecidableEq, Repr

/-- The three rows with storage (R40). Every other address of the bus space is UNMAPPED. -/
def regionTable : List MapRow :=
  [ ⟨Config.romStart, Config.romEnd, .rom⟩,
    ⟨Config.vramStart, Config.vramEnd, .vram⟩,
    ⟨Config.wramStart, Config.wramEnd, .wram⟩ ]

/-- The address lies in the row's range, both ends inclusive. -/
def MapRow.covers (r : MapRow) (A : Nat) : Bool := r.first ≤ A && A ≤ r.last

/-- What an address resolves to: a cell of a storage array, or nothing. -/
inductive Target where
  | cell (bank : Bank) (offset : Nat)
  | unmapped
  | invalid
  deriving DecidableEq, Repr

/-- The spec's function `decode(A)` on every natural number (R100): the first row that covers the address, with
`address − region_start` as the offset. -/
def decodeAddr (A : Nat) : Target :=
  if Config.addrMax < A then .invalid
  else
    match regionTable.find? (·.covers A) with
    | some r => .cell r.bank (A - r.first)
    | none   => .unmapped

/-- The class of a storage array. -/
def Bank.region : Bank → Region
  | .rom => .rom
  | .vram => .vram
  | .wram => .wram

/-- The class of a target (R100). -/
def Target.region : Target → Region
  | .cell k _ => k.region
  | .unmapped => .unmapped
  | .invalid  => .invalid

/-- The offset of a target, 0 where there is none (R76). -/
def Target.offset : Target → Nat
  | .cell _ o => o
  | .unmapped => 0
  | .invalid  => 0

/-- The select line of one storage array: `sel_rom`, `sel_vram`, `sel_wram` (R104). -/
def Target.sel (t : Target) (k : Bank) : Bool :=
  match t with
  | .cell j _ => j == k
  | .unmapped => false
  | .invalid  => false

/-- `hit = sel_rom | sel_vram | sel_wram` (R104). -/
def Target.hit (t : Target) : Bool := t.sel .rom || t.sel .vram || t.sel .wram

/-- The number of cells of a storage array (R20). -/
def Bank.size : Bank → Nat
  | .rom  => Config.romSize
  | .vram => Config.vramSize
  | .wram => Config.wramSize

/-- The region code of R79. -/
def Region.code : Region → BitVec 3
  | .rom      => 0#3
  | .vram     => 1#3
  | .wram     => 2#3
  | .unmapped => 3#3
  | .invalid  => 4#3

/-- The string `regionName` returns (R79). -/
def Region.name : Region → String
  | .rom      => "ROM"
  | .vram     => "VRAM"
  | .wram     => "WRAM"
  | .unmapped => "Unmapped"
  | .invalid  => "Invalid"

end Sys2Proof.Machine
end

