-- ==== Sys2Proof/Machine/Operands.lean ====
section
/-! DEFINITION. Every operand form of the block (spec R73, R82, R120, R127): the addresses and bytes of the two lanes of a
word, the count of a dump, the part of an image that is looked at. -/

namespace Sys2Proof.Machine

/-- The address of the second byte of a word: `(a + 1) mod 65536` (R120; log 6). -/
def inc16 (a : Addr) : Addr := a + 1#16

/-- `value & 0xFF`, the byte of lane 0 (R126). -/
def lowByte (v : Word) : Byte := v.extractLsb' 0 8

/-- `(value >> 8) & 0xFF`, the byte of lane 1 (R126). -/
def highByte (v : Word) : Byte := v.extractLsb' 8 8

/-- `low | (high << 8)` (R125). -/
def joinWord (low high : Byte) : Word := low.zeroExtend 16 ||| (high.zeroExtend 16 <<< 8)

/-- `zext_16` of a read byte (R11, R123). -/
def zext16 (b : Byte) : BitVec 16 := b.zeroExtend 16

/-- `end − start + 1`, a 17-bit count, for `start <= end` (R161). -/
def dumpCount (start last : Addr) : Nat := last.toNat - start.toNat + 1

/-- `start + i`, the address of item `i` (R161); it never passes `end`. -/
def dumpAddr (start : Addr) (i : Nat) : Addr := start + BitVec.ofNat 16 i

/-- The bytes of an image that a load stores: the first 32768 (R170, R172). -/
def imageTaken (bytes : List Byte) : List Byte := bytes.take Config.romSize

end Sys2Proof.Machine
end

