-- ==== Sys2Proof/Machine/Flags.lean ====
section
/-! DEFINITION. Every flag of the response (spec R76 to R79, R160): the located fields, the violation bits, the error
report. -/

namespace Sys2Proof.Machine

/-- The response in which no rule has named a field: every field zero (R14, R76). -/
def Response.zero : Response :=
  { rdata := 0#16, hit := false, region := .rom, offset := 0#15, viol := 0#2, ok := false, err := .noError, dump := [] }

/-- The response of an operation that met no error: `ok = 1`, `err = 0` (R78). -/
def Response.okay : Response := { Response.zero with ok := true }

/-- `hit`, `region`, `offset` driven from `decode(addr)` (R76). -/
def Response.locate (r : Response) (a : Addr) : Response :=
  let t := decodeAddr a.toNat
  { r with hit := t.hit, region := t.region, offset := BitVec.ofNat 15 t.offset }

/-- `report <Class>`: the response fields that name the error class, and nothing else (R13, R78, R199). The one
operation behind every error of the block. -/
def Response.report (r : Response) (c : ErrClass) : Response := { r with ok := false, err := c }

/-- `{v1, v0}`: one violation bit per lane, lane 0 in bit 0 (R77). -/
def violBits (v0 v1 : Bool) : BitVec 2 := BitVec.ofBool v1 ++ BitVec.ofBool v0

/-- The response of a bus write: `viol`, and the report of class (c) when any lane was rejected (R124, R126). -/
def Response.written (r : Response) (v0 v1 : Bool) : Response :=
  let r' := { r with viol := violBits v0 v1 }
  if v0 || v1 then r'.report .roViolation else r'

/-- The error number of R78. -/
def ErrClass.code : ErrClass → BitVec 3
  | .noError     => 0#3
  | .roViolation => 1#3
  | .ioFailure   => 2#3
  | .badDump     => 3#3
  | .illegalOp   => 4#3

/-- `printable(b)` (R160): 32 to 126, both inclusive. -/
def printable (b : Byte) : Bool := Config.printLo ≤ b.toNat && b.toNat ≤ Config.printHi

end Sys2Proof.Machine
end

