-- ==== Sys2Proof/Machine/Ops.lean ====
section
/-! DEFINITION. The named operations over storage (spec R10, R121, R122, R170, R175) and the completion of an operation
(R13, R14, R199). The block takes no exception and returns from none (R198, R199, R200): an error is
`Response.report`, and every operation ends in `complete`. -/

namespace Sys2Proof.Machine

/-- What a cell that is not listed holds: the reset value `0x00` (R32; log 8). -/
def Memory.unlisted : Byte := 0x00#8

/-- The canonical form of a storage array of `size` cells: offsets strictly rising and inside the array, no cell
listed that holds the unlisted value. -/
abbrev Memory.wf (size : Nat) (m : Memory) : Prop :=
  m.Pairwise (fun c d => c.1 < d.1) ∧ ∀ c ∈ m, c.2 ≠ Memory.unlisted ∧ c.1 < size

/-- Read cell `o`: `rom[o]`, `vram[o]`, `wram[o]` of R10. -/
def Memory.read : Memory → Nat → Byte
  | [], _ => Memory.unlisted
  | (k, v) :: m, o => if o = k then v else Memory.read m o

/-- The list form of the one cell `o` holding `v`. -/
def Memory.single (o : Nat) (v : Byte) : Memory := if v = Memory.unlisted then [] else [(o, v)]

/-- Write cell `o`: `vram[o] <- v` of R10; no other cell changes. -/
def Memory.write (m : Memory) (o : Nat) (v : Byte) : Memory :=
  m.filter (fun c => c.1 < o) ++ Memory.single o v ++ m.filter (fun c => o < c.1)

/-- The list form of bytes stored from offset `o` upward. -/
def Memory.listFrom : Nat → List Byte → Memory
  | _, [] => []
  | o, v :: vs => Memory.single o v ++ Memory.listFrom (o + 1) vs

/-- Store bytes at the offsets 0, 1, ...; the cells beyond them keep their value (R170, R171). -/
def Memory.overlay (m : Memory) (bytes : List Byte) : Memory :=
  Memory.listFrom 0 bytes ++ m.filter (fun c => bytes.length ≤ c.1)

/-- The storage array a select line names (R104). -/
def Block.bank (b : Block) : Bank → Memory
  | .rom  => b.rom
  | .vram => b.vram
  | .wram => b.wram

/-- The block with one storage array replaced. -/
def Block.setBank (b : Block) (k : Bank) (m : Memory) : Block :=
  match k with
  | .rom  => { b with rom := m }
  | .vram => { b with vram := m }
  | .wram => { b with wram := m }

/-- The canonical form of the whole block. -/
abbrev Block.wf (b : Block) : Prop :=
  b.rom.wf Config.romSize ∧ b.vram.wf Config.vramSize ∧ b.wram.wf Config.wramSize

/-- The read side of `mem_region_mux` at an address of any width (R121; log 15). -/
def Block.readAt (b : Block) (A : Nat) : Byte :=
  match decodeAddr A with
  | .cell k o => (b.bank k).read o
  | .unmapped => Config.openBus
  | .invalid  => Config.openBus

/-- `bus_read8(a)` (R121). -/
def Block.busRead8 (b : Block) (a : Addr) : Byte := b.readAt a.toNat

/-- The sub-block `rom_write_protect`: a bus write that decodes to ROM is blocked, whatever `romLoaded` and the value
are (R49). -/
def romWriteProtect (t : Target) : Bool := t.sel .rom

/-- The write side of `mem_region_mux` behind `rom_write_protect`, at an address of any width: the new block and the
violation bit (R122; log 15). -/
def Block.writeAt (b : Block) (A : Nat) (v : Byte) : Block × Bool :=
  let t := decodeAddr A
  if romWriteProtect t then (b, true)
  else
    match t with
    | .cell k o => (b.setBank k ((b.bank k).write o v), false)
    | .unmapped => (b, false)
    | .invalid  => (b, false)

/-- `bus_write8(a, v)` (R122). -/
def Block.busWrite8 (b : Block) (a : Addr) (v : Byte) : Block × Bool := b.writeAt a.toNat v

/-- The lifecycle path: every cell `0x00`, `romLoaded` 0, whatever the block held (R175, R201). -/
def Block.zeroed (_ : Block) : Block := { rom := [], vram := [], wram := [], romLoaded := false }

/-- The load path: the taken bytes into `rom` from offset 0, `romLoaded` set (R170, R174). -/
def Block.loaded (b : Block) (bytes : List Byte) : Block :=
  { b with rom := b.rom.overlay (imageTaken bytes), romLoaded := true }

/-- The status output `rom_loaded` (R26, R70). -/
def romLoadedOut (s : State) : Bool := s.block.romLoaded

/-- An operation completes: the block it leaves and the response it gives (R14). Nothing else changes. -/
def complete (s : State) (b : Block) (r : Response) : Host.Outcome State Fault Refusal :=
  .next { s with block := b, rsp := some r }

end Sys2Proof.Machine
end

