-- ==== Sys2Proof/Machine/Arbiter.lean ====
section
/-! DEFINITION. The side of `read_write_arbiter` that takes one request at a time (spec R52, R130) from what the outside
presents (R55, R70; logs 1, 2). Its other side, the two lanes of a word, is in `ReadWrite.lean`. -/

namespace Sys2Proof.Machine

/-- Take the oldest thing presented, with the value of `cart` that came with it; none when nothing is presented. -/
def accept (s : State) : Option (Input × State) :=
  match s.inputs with
  | [] => none
  | .rst :: rest => some (.rst, { s with inputs := rest })
  | .op w c :: rest => some (.op w c, { s with inputs := rest, cart := c })

/-- Nothing is presented: nothing changes and no response is given (R28, R31; log 2). -/
def idle (s : State) : State := { s with rsp := none }

/-- The outside presents the request word `w` next, `cart` staying as it is. -/
def presentNext (s : State) (w : ReqWord) : State := { s with inputs := .op w s.cart :: s.inputs }

end Sys2Proof.Machine
end

