-- ==== Sys2Proof/Machine/Classify.lean ====
section
/-! DEFINITION. The operations that classify an address and touch no storage (spec R101, R150, R151): `XLT`, `VLD`,
`RGN`. All three give `hit`, `region`, `offset` (R153). -/

namespace Sys2Proof.Machine

/-- The response of a classifier: the located fields and nothing else (R153). -/
def classified (a : Addr) : Response := Response.okay.locate a

/-- `XLT addr` (R101). -/
def execXlt (a : Addr) (s : State) : Host.Outcome State Fault Refusal := complete s s.block (classified a)

/-- `VLD addr` (R150). -/
def execVld (a : Addr) (s : State) : Host.Outcome State Fault Refusal := complete s s.block (classified a)

/-- `RGN addr` (R151). -/
def execRgn (a : Addr) (s : State) : Host.Outcome State Fault Refusal := complete s s.block (classified a)

/-- `isValidAddress` on an address of any width (R150). -/
def isValidAddress (A : Nat) : Bool := (decodeAddr A).hit

/-- `regionName` on an address of any width (R151). -/
def regionName (A : Nat) : String := (decodeAddr A).region.name

end Sys2Proof.Machine
end

