-- ==== Sys2Proof/Machine/Dump.lean ====
section
/-! DEFINITION. The diagnostic burst read `DMP` (spec `43_dump.md` R160 to R164), and the rows a caller cuts its stream
into (R162, R163; log 17). -/

namespace Sys2Proof.Machine

/-- `item(a) = { a, bus_read8(a), printable(bus_read8(a)) }` (R161). -/
def dumpItem (b : Block) (a : Addr) : DumpItem :=
  let v := b.busRead8 a
  { a := a, b := v, p := printable v }

/-- The `n` items from `start`, ascending (R161). -/
def dumpItems (b : Block) (start : Addr) (n : Nat) : List DumpItem :=
  (List.range n).map fun i => dumpItem b (dumpAddr start i)

/-- `DMP start, end` (R161): the comparison is of the two fields as unsigned numbers (R195). -/
def execDmp (start last : Addr) (s : State) : Host.Outcome State Fault Refusal :=
  if last.toNat < start.toNat then complete s s.block (Response.zero.report .badDump)
  else complete s s.block { Response.okay with dump := dumpItems s.block start (dumpCount start last) }

/-- One row as the caller lists it (R163): base address, the hexadecimal part with the number of blank placeholders
after it, the ASCII part. The text layout is no contract. -/
structure ListingRow where
  base   : Addr
  bytes  : List Byte
  blanks : Nat
  ascii  : List Char
  deriving DecidableEq, Repr

/-- Row `k`: the items with index `16k` to `min(16k + 15, n − 1)` (R162). -/
def dumpRow (items : List DumpItem) (k : Nat) : List DumpItem :=
  (items.drop (Config.dumpRowLen * k)).take Config.dumpRowLen

/-- There are `ceil(n / 16)` rows (R162). -/
def dumpRowCount (items : List DumpItem) : Nat :=
  (items.length + (Config.dumpRowLen - 1)) / Config.dumpRowLen

/-- The stream cut into rows from its first item (R162). -/
def dumpRows (items : List DumpItem) : List (List DumpItem) :=
  (List.range (dumpRowCount items)).map (dumpRow items)

/-- An item with `p = 1` is shown as the character with code `b`, any other as `.` (R163). -/
def DumpItem.shown (x : DumpItem) : Char := if x.p then Char.ofNat x.b.toNat else '.'

/-- Row `k` of the listing of a stream that begins at `start`: its base address is `start + 16k` (R162, R163). -/
def listingRow (start : Addr) (items : List DumpItem) (k : Nat) : ListingRow :=
  let row := dumpRow items k
  { base := dumpAddr start (Config.dumpRowLen * k), bytes := row.map (·.b),
    blanks := Config.dumpRowLen - row.length, ascii := row.map (·.shown) }

/-- The listing of a stream that begins at `start` (R163). -/
def listing (start : Addr) (items : List DumpItem) : List ListingRow :=
  (List.range (dumpRowCount items)).map (listingRow start items)

end Sys2Proof.Machine
end

