-- ==== Sys2Proof/Machine/Lifecycle.lean ====
section
/-! DEFINITION. ROM load and lifecycle (spec `44_load_lifecycle.md`, `70_reset_and_hazards.md` R220): `LOAD`, `INIT`,
`CLR`, and the pin `rst`. -/

namespace Sys2Proof.Machine

/-- `INIT` (R175). -/
def execInit (s : State) : Host.Outcome State Fault Refusal := complete s s.block.zeroed Response.okay

/-- `CLR` (R176): the state and the response of `INIT`, and the block goes on (R177; log 19). -/
def execClr (s : State) : Host.Outcome State Fault Refusal := complete s s.block.zeroed Response.okay

/-- The response of a load that brought no byte: the report of class (d) (R170, R194). -/
def loadFailed : Response := Response.zero.report .ioFailure

/-- `LOAD` of the value on `cart` (R170): an absent or an empty image changes nothing and is reported, any other
image is stored and sets `romLoaded`. It never gives a violation (R174). -/
def execLoad (s : State) : Host.Outcome State Fault Refusal :=
  match s.cart with
  | .absent => complete s s.block loadFailed
  | .image bytes =>
    if (imageTaken bytes).length = 0 then complete s s.block loadFailed
    else complete s (s.block.loaded bytes) Response.okay

/-- The pin `rst` is asserted: the state `INIT` leaves, and no request to respond to (R220; log 3). -/
def resetPin (s : State) : State := { s with block := s.block.zeroed, rsp := none }

end Sys2Proof.Machine
end

