-- ==== Sys2Proof/Machine/ReadWrite.lean ====
section
/-! DEFINITION. Byte and word read and write (spec `41_read_write.md`): `RDB`, `WRB`, `RDW`, `WRW`. A word is two byte
accesses, low address first, each decoded on its own (R46, R53, R130). -/

namespace Sys2Proof.Machine

/-- `RDB addr` (R123). -/
def execRdb (a : Addr) (s : State) : Host.Outcome State Fault Refusal :=
  complete s s.block { Response.okay.locate a with rdata := zext16 (s.block.busRead8 a) }

/-- `WRB addr, value` (R124). -/
def execWrb (a : Addr) (v : Byte) (s : State) : Host.Outcome State Fault Refusal :=
  let w := s.block.busWrite8 a v
  complete s w.1 ((Response.okay.locate a).written w.2 false)

/-- `RDW addr` (R125). -/
def execRdw (a : Addr) (s : State) : Host.Outcome State Fault Refusal :=
  let low := s.block.busRead8 a
  let high := s.block.busRead8 (inc16 a)
  complete s s.block { Response.okay.locate a with rdata := joinWord low high }

/-- `WRW addr, value` (R126). -/
def execWrw (a : Addr) (v : Word) (s : State) : Host.Outcome State Fault Refusal :=
  let w0 := s.block.busWrite8 a (lowByte v)
  let w1 := w0.1.busWrite8 (inc16 a) (highByte v)
  complete s w1.1 ((Response.okay.locate a).written w0.2 w1.2)

end Sys2Proof.Machine
end

