-- ==== Sys2Proof/Machine/Reserved.lean ====
section
/-! DEFINITION. The reserved op codes `0xB` to `0xF` (spec R80, R196; log 7): no state changes, the response is
`ok = 0`, `err = 4`, every other field 0. -/

namespace Sys2Proof.Machine

/-- The response to a reserved code (R80). -/
def illegalOpResponse : Response := Response.zero.report .illegalOp

/-- Op code `0xB` (R80). -/
def execReservedB (s : State) : Host.Outcome State Fault Refusal := complete s s.block illegalOpResponse

/-- Op code `0xC` (R80). -/
def execReservedC (s : State) : Host.Outcome State Fault Refusal := complete s s.block illegalOpResponse

/-- Op code `0xD` (R80). -/
def execReservedD (s : State) : Host.Outcome State Fault Refusal := complete s s.block illegalOpResponse

/-- Op code `0xE` (R80). -/
def execReservedE (s : State) : Host.Outcome State Fault Refusal := complete s s.block illegalOpResponse

/-- Op code `0xF` (R80). -/
def execReservedF (s : State) : Host.Outcome State Fault Refusal := complete s s.block illegalOpResponse

end Sys2Proof.Machine
end

