-- ==== Sys2Proof/Machine/Dispatch.lean ====
section
/-! DEFINITION. One arm per operation (spec R74): the meaning of every row of the opcode table. -/

namespace Sys2Proof.Machine

/-- What an operation does (R14). -/
def exec (i : Instr) (s : State) : Host.Outcome State Fault Refusal :=
  match i with
  | .rdb a => Sys2Proof.Machine.execRdb a s
  | .wrb a v => Sys2Proof.Machine.execWrb a v s
  | .rdw a => Sys2Proof.Machine.execRdw a s
  | .wrw a v => Sys2Proof.Machine.execWrw a v s
  | .xlt a => Sys2Proof.Machine.execXlt a s
  | .vld a => Sys2Proof.Machine.execVld a s
  | .rgn a => Sys2Proof.Machine.execRgn a s
  | .dmp a b => Sys2Proof.Machine.execDmp a b s
  | .init => Sys2Proof.Machine.execInit s
  | .clr => Sys2Proof.Machine.execClr s
  | .load => Sys2Proof.Machine.execLoad s
  | .reservedB => Sys2Proof.Machine.execReservedB s
  | .reservedC => Sys2Proof.Machine.execReservedC s
  | .reservedD => Sys2Proof.Machine.execReservedD s
  | .reservedE => Sys2Proof.Machine.execReservedE s
  | .reservedF => Sys2Proof.Machine.execReservedF s

end Sys2Proof.Machine
end

