-- ==== Sys2Proof/Machine/Step.lean ====
section
/-! DEFINITION. One step: one operation from request to response (spec R52, R230), or the pin `rst` (R220), or nothing
when nothing is presented (logs 1, 2, 3). -/

namespace Sys2Proof.Machine

/-- One step of the machine. -/
def step (s : State) : Host.Outcome State Fault Refusal :=
  match accept s with
  | none => .next (idle s)
  | some (.rst, s') => .next (resetPin s')
  | some (.op w _, s') => exec (decode w) s'

/-- `s` with a table word presented next (logs 1, 16). -/
def State.withFetchWord (s : State) (nbits w : Nat) : State :=
  presentNext s (BitVec.ofNat 36 (tableNumber nbits w))

end Sys2Proof.Machine
end

