-- ==== Sys2Proof/Safety.lean ====
section
/-! DEFINITION. The terms claims are stated in: the access paths and their rights (spec R201), the duties of the platform
(R225), who presents an operation (R74), and the invariant of the machine. -/

namespace Sys2Proof.Machine

/-- The way an operation reaches storage (R201). -/
inductive Path where
  | bus | load | lifecycle | noAccess
  deriving DecidableEq, Repr

/-- The path of an operation, chosen by the operation and by nothing else (R201). The reserved codes are not in the table of
R201; they reach no storage, since R80 has them change and read nothing (log 7). -/
def pathOf : Instr → Path
  | .rdb _ => .bus
  | .wrb _ _ => .bus
  | .rdw _ => .bus
  | .wrw _ _ => .bus
  | .xlt _ => .noAccess
  | .vld _ => .noAccess
  | .rgn _ => .noAccess
  | .dmp _ _ => .bus
  | .init => .lifecycle
  | .clr => .lifecycle
  | .load => .load
  | .reservedB => .noAccess
  | .reservedC => .noAccess
  | .reservedD => .noAccess
  | .reservedE => .noAccess
  | .reservedF => .noAccess

/-- The path of what is presented: the pin `rst` takes the lifecycle path (R201; log 3). -/
def pathOfInput : Input → Path
  | .rst => .lifecycle
  | .op w _ => pathOf (decode w)

/-- The storage a path may write (R201). -/
def Path.mayWrite : Path → Bank → Bool
  | .bus, .rom => false
  | .bus, .vram => true
  | .bus, .wram => true
  | .load, .rom => true
  | .load, .vram => false
  | .load, .wram => false
  | .lifecycle, _ => true
  | .noAccess, _ => false

/-- The storage a path may read (R201). -/
def Path.mayRead : Path → Bank → Bool
  | .bus, _ => true
  | .load, _ => false
  | .lifecycle, _ => false
  | .noAccess, _ => false

/-- Who presents an operation (R7, R74). -/
inductive Agent where
  | requester | host | nobody
  deriving DecidableEq, Repr

/-- The column "presented by" of R74. -/
def presenterOf : Instr → Agent
  | .rdb _ => .requester
  | .wrb _ _ => .requester
  | .rdw _ => .requester
  | .wrw _ _ => .requester
  | .xlt _ => .requester
  | .vld _ => .requester
  | .rgn _ => .requester
  | .dmp _ _ => .requester
  | .init => .host
  | .clr => .host
  | .load => .host
  | .reservedB => .nobody
  | .reservedC => .nobody
  | .reservedD => .nobody
  | .reservedE => .nobody
  | .reservedF => .nobody

/-- What one input can keep or break: the duty `DMP` only with `start <= end` (R225); and that no reserved code is presented,
which is no duty of R225 but the model's choice beside it, from "presented by: nobody" of R74 (log 7). -/
def dutyKept : Input → Bool
  | .rst => true
  | .op w _ =>
    match decode w with
    | .dmp start last => start.toNat ≤ last.toNat
    | i => i.wellFormed

/-- The invariant of the machine: every storage array keeps its canonical form and its size (R20, R27). -/
abbrev State.Inv (s : State) : Prop := s.block.wf

/-- A safe run of `k` steps: it stops at no fault and no refusal. -/
def runsSafely (k : Nat) (s : State) : Prop := ∃ t, Host.Core.run core k s = .next t

end Sys2Proof.Machine
end

