-- ==== Sys2Proof/Certificates/Slice0/Obligations.lean ====
section
/-! DEFINITION. The statements for the provers. `Sys2Proof.Claims` holds the spec's own ranges (R40, R79, R121, R122), written
without the model's region table, so that a statement compares the machine with the spec and not with itself.
The response record of R76 to R79, with every field that a rule does not name at zero (R14), is the form in which the spec
carries the results of the document, its decisions D6, D8 and D13 (log 13). -/

namespace Sys2Proof.Claims

open Sys2Proof.Machine

/-- The ranges of R40. -/
def inRom (A : Nat) : Prop := A ≤ 0x7FFF
def inVram (A : Nat) : Prop := 0x8000 ≤ A ∧ A ≤ 0x9FFF
def inWram (A : Nat) : Prop := 0xC000 ≤ A ∧ A ≤ 0xDFFF
def inNone (A : Nat) : Prop := (0xA000 ≤ A ∧ A ≤ 0xBFFF) ∨ (0xE000 ≤ A ∧ A ≤ 0xFFFF)

/-- The class of a bus address (R40, R79). -/
def regionAt (a : Addr) : Region :=
  if a.toNat ≤ 0x7FFF then .rom
  else if 0x8000 ≤ a.toNat ∧ a.toNat ≤ 0x9FFF then .vram
  else if 0xC000 ≤ a.toNat ∧ a.toNat ≤ 0xDFFF then .wram
  else .unmapped

/-- `address − region_start` where there is storage, else 0 (R40, R76). -/
def offsetAt (a : Addr) : BitVec 15 :=
  if a.toNat ≤ 0x7FFF then BitVec.ofNat 15 a.toNat
  else if 0x8000 ≤ a.toNat ∧ a.toNat ≤ 0x9FFF then BitVec.ofNat 15 (a.toNat - 0x8000)
  else if 0xC000 ≤ a.toNat ∧ a.toNat ≤ 0xDFFF then BitVec.ofNat 15 (a.toNat - 0xC000)
  else 0#15

/-- Backed by storage: `0x0000` to `0x9FFF` and `0xC000` to `0xDFFF` (R150). -/
def hitAt (a : Addr) : Bool := a.toNat ≤ 0x9FFF || (0xC000 ≤ a.toNat && a.toNat ≤ 0xDFFF)

/-- The byte at a bus address (R121). -/
def byteAt (b : Block) (a : Addr) : Byte :=
  if a.toNat ≤ 0x7FFF then b.rom.read a.toNat
  else if 0x8000 ≤ a.toNat ∧ a.toNat ≤ 0x9FFF then b.vram.read (a.toNat - 0x8000)
  else if 0xC000 ≤ a.toNat ∧ a.toNat ≤ 0xDFFF then b.wram.read (a.toNat - 0xC000)
  else 0xFF#8

/-- The block after a bus write of one byte (R122). -/
def storeAt (b : Block) (a : Addr) (v : Byte) : Block :=
  if 0x8000 ≤ a.toNat ∧ a.toNat ≤ 0x9FFF then { b with vram := b.vram.write (a.toNat - 0x8000) v }
  else if 0xC000 ≤ a.toNat ∧ a.toNat ≤ 0xDFFF then { b with wram := b.wram.write (a.toNat - 0xC000) v }
  else b

/-- A bus write to this address is a violation (R193). -/
def violAt (a : Addr) : Bool := a.toNat ≤ 0x7FFF

/-- A response with `ok = 1`, `err = 0` and every other field zero (R14, R78). -/
def okay : Response :=
  { rdata := 0#16, hit := false, region := .rom, offset := 0#15, viol := 0#2, ok := true, err := .noError, dump := [] }

/-- A response with `ok = 0`, an error class and every other field zero (R14, R78). -/
def failed (c : ErrClass) : Response :=
  { rdata := 0#16, hit := false, region := .rom, offset := 0#15, viol := 0#2, ok := false, err := c, dump := [] }

/-- A response with the located fields of an address (R76). -/
def located (r : Response) (a : Addr) : Response :=
  { r with hit := hitAt a, region := regionAt a, offset := offsetAt a }

/-- The response of a bus write with the given violation bits (R124, R126). -/
def writeResponse (a : Addr) (v0 v1 : Bool) : Response :=
  let r := { located okay a with viol := BitVec.ofBool v1 ++ BitVec.ofBool v0 }
  if v0 || v1 then { r with ok := false, err := .roViolation } else r

/-- Storing bytes one after another from a cell upward: the loop of R170. -/
def storeUpward (m : Memory) (o : Nat) : List Byte → Memory
  | [] => m
  | v :: vs => storeUpward (m.write o v) (o + 1) vs

/-- The operations that only read or classify (R48, R205). -/
def onlyReads : Instr → Prop
  | .rdb _ | .rdw _ | .xlt _ | .vld _ | .rgn _ | .dmp _ _ => True
  | .wrb _ _ | .wrw _ _ | .init | .clr | .load => False
  | .reservedB | .reservedC | .reservedD | .reservedE | .reservedF => False

/-- The operations that can write `rom` (R23). -/
def writesRom : Instr → Prop
  | .init | .clr | .load => True
  | .rdb _ | .wrb _ _ | .rdw _ | .wrw _ _ | .xlt _ | .vld _ | .rgn _ | .dmp _ _ => False
  | .reservedB | .reservedC | .reservedD | .reservedE | .reservedF => False

/-- The reserved codes (R80). -/
def isReserved : Instr → Prop
  | .reservedB | .reservedC | .reservedD | .reservedE | .reservedF => True
  | .rdb _ | .wrb _ _ | .rdw _ | .wrw _ _ | .xlt _ | .vld _ | .rgn _ | .dmp _ _ => False
  | .init | .clr | .load => False

/-- What the byte at an address with storage becomes by one input, from the words of the rules alone: a write, a load or a
reset of that very cell gives it, anything else leaves it (R28, R55). -/
def byteAfter (a : Addr) (old : Byte) : Input → Byte
  | .rst => 0#8
  | .op w c =>
    match decode w with
    | .wrb x v => if x = a ∧ 0x8000 ≤ a.toNat then v else old
    | .wrw x v =>
      if x + 1#16 = a ∧ 0x8000 ≤ a.toNat then v.extractLsb' 8 8
      else if x = a ∧ 0x8000 ≤ a.toNat then v.extractLsb' 0 8
      else old
    | .init | .clr => 0#8
    | .load =>
      match c with
      | .absent => old
      | .image bytes => if a.toNat ≤ 0x7FFF then bytes[a.toNat]?.getD old else old
    | .rdb _ | .rdw _ | .xlt _ | .vld _ | .rgn _ | .dmp _ _ => old
    | .reservedB | .reservedC | .reservedD | .reservedE | .reservedF => old

/-- What `romLoaded` becomes by one input (R26). -/
def loadedAfter (old : Bool) : Input → Bool
  | .rst => false
  | .op w c =>
    match decode w with
    | .init | .clr => false
    | .load =>
      match c with
      | .absent => old
      | .image bytes => old || !bytes.isEmpty
    | .rdb _ | .wrb _ _ | .rdw _ | .wrw _ _ | .xlt _ | .vld _ | .rgn _ | .dmp _ _ => old
    | .reservedB | .reservedC | .reservedD | .reservedE | .reservedF => old

end Sys2Proof.Claims

open Sys2Proof Sys2Proof.Machine Sys2Proof.Claims

/-! The address translator. -/

/-- R100: the class and the offset of every natural number. -/
def Obligations.AddressMapByRanges : Prop :=
  ∀ A : Nat,
    (0xFFFF < A → decodeAddr A = .invalid) ∧
    (inRom A → decodeAddr A = .cell .rom (A - 0x0000)) ∧
    (inVram A → decodeAddr A = .cell .vram (A - 0x8000)) ∧
    (inWram A → decodeAddr A = .cell .wram (A - 0xC000)) ∧
    (inNone A → decodeAddr A = .unmapped)

/-- R41 (derived in the spec from R40): the same map by the bits of the address. -/
def Obligations.AddressMapByBits : Prop :=
  ∀ a : Addr, decodeAddr a.toNat =
    match a.getLsbD 15, a.getLsbD 14, a.getLsbD 13 with
    | false, _, _ => .cell .rom (a.extractLsb' 0 15).toNat
    | true, false, false => .cell .vram (a.extractLsb' 0 13).toNat
    | true, false, true => .unmapped
    | true, true, false => .cell .wram (a.extractLsb' 0 13).toNat
    | true, true, true => .unmapped

/-- R102 items 4 and 5 (derived in the spec from R100): no two addresses reach one cell, every cell is reached, and the
offset always indexes an existing cell. -/
def Obligations.EveryCellHasExactlyOneAddress : Prop :=
  (∀ A k o, decodeAddr A = .cell k o → o < k.size) ∧
  (∀ k o, o < k.size → ∃ a : Addr, decodeAddr a.toNat = .cell k o ∧
    ∀ A, decodeAddr A = .cell k o → A = a.toNat)

/-- R104 (signal names: the spec's decision D1): each select line names its class, at most one is 1, `hit` is their or. -/
def Obligations.SelectLinesNameTheClass : Prop :=
  ∀ A : Nat,
    ((decodeAddr A).sel .rom = true ↔ inRom A) ∧
    ((decodeAddr A).sel .vram = true ↔ inVram A) ∧
    ((decodeAddr A).sel .wram = true ↔ inWram A) ∧
    (∀ j k, (decodeAddr A).sel j = true → (decodeAddr A).sel k = true → j = k) ∧
    ((decodeAddr A).hit = true ↔ inRom A ∨ inVram A ∨ inWram A)

/-- R101, R150, R151: the three classifiers change nothing and answer `hit`, `region`, `offset` of the address; and on
addresses of any width, what is valid and the string that names the region. That "not found" is carried as `hit = 0`,
`offset = 0` is the spec's decision D6 (log 13), hence basis derived. -/
def Obligations.ClassifiersAnswerHitRegionOffset : Prop :=
  (∀ (s : State) (a : Addr),
    exec (.xlt a) s = .next { s with rsp := some (located okay a) } ∧
    exec (.vld a) s = .next { s with rsp := some (located okay a) } ∧
    exec (.rgn a) s = .next { s with rsp := some (located okay a) }) ∧
  ∀ A : Nat,
    (isValidAddress A = true ↔ A ≤ 0x9FFF ∨ (0xC000 ≤ A ∧ A ≤ 0xDFFF)) ∧
    (inRom A → regionName A = "ROM") ∧ (inVram A → regionName A = "VRAM") ∧
    (inWram A → regionName A = "WRAM") ∧ (inNone A → regionName A = "Unmapped") ∧
    (0xFFFF < A → regionName A = "Invalid")

/-- R152 (its general statement is derived in the spec): `VLD` and `RGN` agree, and the six region ends are valid. -/
def Obligations.ValidityAgreesWithRegion : Prop :=
  ∀ s : State,
    (∀ a, ∃ r q, exec (.vld a) s = .next { s with rsp := some r } ∧
      exec (.rgn a) s = .next { s with rsp := some q } ∧
      (r.hit = true ↔ q.region = .rom ∨ q.region = .vram ∨ q.region = .wram) ∧
      (r.hit = false ↔ q.region = .unmapped ∨ q.region = .invalid)) ∧
    (∀ e ∈ [(0x0000#16, 0#3), (0x7FFF#16, 0#3), (0x8000#16, 1#3), (0x9FFF#16, 1#3), (0xC000#16, 2#3), (0xDFFF#16, 2#3)],
      ∃ r, exec (.vld e.1) s = .next { s with rsp := some r } ∧
        exec (.rgn e.1) s = .next { s with rsp := some r } ∧ r.hit = true ∧ r.region.code = e.2)

/-! Byte and word access. -/

/-- R121, the line for addresses above `0xFFFF` by the spec's decision D3 (log 15). -/
def Obligations.BusReadFollowsTheMap : Prop :=
  ∀ b : Block, (∀ a, b.busRead8 a = byteAt b a) ∧ ∀ A, 0xFFFF < A → b.readAt A = 0xFF#8

/-- R122, the line for addresses above `0xFFFF` by the spec's decision D3 (log 15). -/
def Obligations.BusWriteFollowsTheMap : Prop :=
  ∀ (b : Block) (v : Byte),
    (∀ a, b.busWrite8 a v = (storeAt b a v, violAt a)) ∧ ∀ A, 0xFFFF < A → b.writeAt A v = (b, false)

/-- R123. -/
def Obligations.RdbReturnsTheByte : Prop :=
  ∀ (s : State) (a : Addr),
    exec (.rdb a) s = .next { s with
      rsp := some { located okay a with rdata := (byteAt s.block a).zeroExtend 16 } }

/-- R124. -/
def Obligations.WrbStoresDiscardsOrRejects : Prop :=
  ∀ (s : State) (a : Addr) (v : Byte),
    exec (.wrb a v) s = .next { s with block := storeAt s.block a v, rsp := some (writeResponse a (violAt a) false) }

/-- R125. At `addr = 0xFFFF` the high byte is that of `0x0000` by the spec's decision D4 (log 6), hence basis derived. -/
def Obligations.RdwJoinsTwoIndependentBytes : Prop :=
  ∀ (s : State) (a : Addr),
    exec (.rdw a) s = .next { s with
      rsp := some { located okay a with rdata := byteAt s.block (a + 1#16) ++ byteAt s.block a } }

/-- R126. At `addr = 0xFFFF` lane 1 is at `0x0000` by the spec's decision D4 (log 6), hence basis derived. -/
def Obligations.WrwWritesTwoIndependentBytes : Prop :=
  ∀ (s : State) (a : Addr) (v : Word),
    exec (.wrw a v) s = .next { s with
      block := storeAt (storeAt s.block a (v.extractLsb' 0 8)) (a + 1#16) (v.extractLsb' 8 8),
      rsp := some (writeResponse a (violAt a) (violAt (a + 1#16))) }

/-- The wrap at the top of the address space, the spec's decision D4 (R47, R120; log 6): what it changes and what it does
not. -/
def Obligations.WordAtTopWrapsToZero : Prop :=
  ∀ (s : State) (v : Word),
    exec (.rdw 0xFFFF#16) s = .next { s with
      rsp := some { located okay 0xFFFF#16 with rdata := s.block.rom.read 0 ++ 0xFF#8 } } ∧
    exec (.wrw 0xFFFF#16 v) s = .next { s with
      rsp := some { located okay 0xFFFF#16 with viol := 0b10#2, ok := false, err := .roViolation } }

/-- The frame of `WRB`: every other address reads as before, and so does the address itself outside VRAM and WRAM;
`rom`, `romLoaded` and the ports are unchanged (R122, R128 sixth law). -/
def Obligations.WrbFrame : Prop :=
  ∀ (s : State) (a : Addr) (v : Byte), ∃ t, exec (.wrb a v) s = .next t ∧
    (∀ c, c ≠ a → t.block.busRead8 c = s.block.busRead8 c) ∧
    (¬ inVram a.toNat → ¬ inWram a.toNat → t.block = s.block) ∧
    (¬ inVram a.toNat → t.block.vram = s.block.vram) ∧ (¬ inWram a.toNat → t.block.wram = s.block.wram) ∧
    t.block.rom = s.block.rom ∧ t.block.romLoaded = s.block.romLoaded ∧
    t.inputs = s.inputs ∧ t.cart = s.cart

/-- The frame of `WRW`: every address that is neither lane's reads as before; `rom`, `romLoaded` and the ports are
unchanged. The lane addresses are those the meaning uses: `addr` and `inc16(addr)`. -/
def Obligations.WrwFrame : Prop :=
  ∀ (s : State) (a : Addr) (v : Word), ∃ t, exec (.wrw a v) s = .next t ∧
    (∀ c, c ≠ a → c ≠ inc16 a → t.block.busRead8 c = s.block.busRead8 c) ∧
    (∀ c, ¬ inVram c.toNat → ¬ inWram c.toNat → t.block.busRead8 c = s.block.busRead8 c) ∧
    t.block.rom = s.block.rom ∧ t.block.romLoaded = s.block.romLoaded ∧
    t.inputs = s.inputs ∧ t.cart = s.cart

/-- R48: a read, a dump or a classification has no side effect, and repeated it gives the same response. -/
def Obligations.ReadsHaveNoSideEffectAndRepeat : Prop :=
  ∀ (i : Instr) (s : State), onlyReads i → ∃ t, exec i s = .next t ∧
    t.block = s.block ∧ t.inputs = s.inputs ∧ t.cart = s.cart ∧
    (∀ a, t.block.busRead8 a = s.block.busRead8 a) ∧ exec i t = .next t

/-- R53 (derived in the spec): the order of the two lanes of a word write cannot be seen in the state. The premise is the
invariant that every step keeps. -/
def Obligations.LaneOrderCannotBeSeen : Prop :=
  ∀ (s : State) (a : Addr) (v : Word), s.Inv → ∃ t, exec (.wrw a v) s = .next t ∧
    t.block = ((s.block.busWrite8 (inc16 a) (highByte v)).1.busWrite8 a (lowByte v)).1

/-- R129 (derived in the spec): a word operation is two byte operations, for the state, the data and the violations. -/
def Obligations.WordOperationIsTwoByteOperations : Prop :=
  ∀ (s : State) (a : Addr) (v : Word),
    (∃ t t0 t1 r r0 r1, exec (.rdw a) s = .next t ∧ exec (.rdb a) s = .next t0 ∧ exec (.rdb (inc16 a)) t0 = .next t1 ∧
      t.rsp = some r ∧ t0.rsp = some r0 ∧ t1.rsp = some r1 ∧ t.block = t1.block ∧
      r.rdata = r0.rdata ||| (r1.rdata <<< 8)) ∧
    (∃ t t0 t1 r r0 r1, exec (.wrw a v) s = .next t ∧ exec (.wrb a (v.extractLsb' 0 8)) s = .next t0 ∧
      exec (.wrb (inc16 a) (v.extractLsb' 8 8)) t0 = .next t1 ∧
      t.rsp = some r ∧ t0.rsp = some r0 ∧ t1.rsp = some r1 ∧ t.block = t1.block ∧
      r.viol = r1.viol.extractLsb' 0 1 ++ r0.viol.extractLsb' 0 1)

/-- R50, R123, R124: an unmapped read gives `0xFF`, an unmapped write changes nothing, and neither is reported. That such an
address answers `hit = 0`, `offset = 0` is R76 with the not-found sentinel of the spec's decision D6 (log 13), hence basis
derived. -/
def Obligations.UnmappedAccessIsNoError : Prop :=
  ∀ (s : State) (a : Addr) (v : Byte), inNone a.toNat →
    exec (.rdb a) s = .next { s with rsp := some { okay with rdata := 0x00FF#16, region := .unmapped } } ∧
    exec (.wrb a v) s = .next { s with rsp := some { okay with region := .unmapped } }

/-- R49: a bus write to ROM stores nothing and is reported, whatever `romLoaded` and the value are; either lane of a word
write likewise; and the only operations that write `rom` are `LOAD`, `INIT` and `CLR`. That lane 1 of a word at `0xFFFF` is at
`0x0000` is the spec's decision D4 (log 6), and the field `viol` its decision D13 (log 13), hence basis derived. That the reserved
codes complete and leave `rom` is D9 (log 7). -/
def Obligations.BusNeverWritesRom : Prop :=
  (∀ (s : State) (a : Addr) (v : Byte), inRom a.toNat → ∃ r, exec (.wrb a v) s = .next { s with rsp := some r } ∧
    r.viol = 0b01#2 ∧ r.ok = false ∧ r.err = .roViolation) ∧
  (∀ (s : State) (a : Addr) (v : Word), ∃ t r, exec (.wrw a v) s = .next t ∧ t.rsp = some r ∧
    (r.viol.getLsbD 0 = true ↔ inRom a.toNat) ∧ (r.viol.getLsbD 1 = true ↔ inRom (inc16 a).toNat) ∧
    (inRom a.toNat ∨ inRom (inc16 a).toNat → r.ok = false ∧ r.err = .roViolation)) ∧
  (∀ (i : Instr) (s : State), ¬ writesRom i → ∃ t, exec i s = .next t ∧ t.block.rom = s.block.rom)

/-- R128: the five laws the document states as testable properties, and the sixth, which the spec derives, hence basis derived. -/
def Obligations.ReadWriteLaws : Prop :=
  (∀ (s : State) (a : Addr), inRom a.toNat ∨ inVram a.toNat ∨ inWram a.toNat → ∃ t u r,
    exec .init s = .next t ∧ exec (.rdb a) t = .next u ∧ u.rsp = some r ∧ r.rdata = 0#16) ∧
  (∀ (s : State) (a : Addr), ¬ (inRom a.toNat ∨ inVram a.toNat ∨ inWram a.toNat) → ∃ t r,
    exec (.rdb a) s = .next t ∧ t.rsp = some r ∧ r.rdata = 0x00FF#16 ∧
    isValidAddress a.toNat = false ∧ regionName a.toNat = "Unmapped") ∧
  (∀ (s : State) (a : Addr) (v : Byte), inRom a.toNat → ∃ t u w,
    exec (.wrb a v) s = .next t ∧ exec (.rdb a) t = .next u ∧ exec (.rdb a) s = .next w ∧ u.rsp = w.rsp) ∧
  (∀ (s : State) (a : Addr) (v : Byte), inVram a.toNat ∨ inWram a.toNat → ∃ t u r,
    exec (.wrb a v) s = .next t ∧ exec (.rdb a) t = .next u ∧ u.rsp = some r ∧ r.rdata = v.zeroExtend 16) ∧
  (∀ (s : State) (a : Addr) (v : Word), inVram a.toNat ∨ inWram a.toNat →
    inVram (a.toNat + 1) ∨ inWram (a.toNat + 1) → ∃ t u r,
    exec (.wrw a v) s = .next t ∧ exec (.rdw a) t = .next u ∧ u.rsp = some r ∧ r.rdata = v) ∧
  (∀ (s : State) (a b : Addr) (v : Byte), b ≠ a → ∃ t,
    exec (.wrb a v) s = .next t ∧ t.block.busRead8 b = s.block.busRead8 b)

/-! The dump. -/

/-- R160. -/
def Obligations.PrintableRange : Prop :=
  ∀ b : Byte, printable b = true ↔ 32 ≤ b.toNat ∧ b.toNat ≤ 126

/-- R161: a malformed dump is reported and reads nothing; any other gives one item per address, ascending, `end − start + 1`
of them. The stream, its items and the count of 17 bits are the spec's decision D20 (R83; log 17), hence basis derived. -/
def Obligations.DumpStreamsTheRange : Prop :=
  ∀ (s : State) (start last : Addr),
    (last.toNat < start.toNat → exec (.dmp start last) s = .next { s with rsp := some (failed .badDump) }) ∧
    (start.toNat ≤ last.toNat → ∃ items : List DumpItem,
      exec (.dmp start last) s = .next { s with rsp := some { okay with dump := items } } ∧
      items.length = last.toNat - start.toNat + 1 ∧
      ∀ n x, items[n]? = some x → x.a.toNat = start.toNat + n ∧ x.b = byteAt s.block x.a ∧
        (x.p = true ↔ 32 ≤ x.b.toNat ∧ x.b.toNat ≤ 126))

/-- R164 (derived in the spec): the bytes of a dump are those that `RDB` of each address would return, in that order. -/
def Obligations.DumpEqualsSuccessiveReads : Prop :=
  ∀ (s : State) (start last : Addr), start.toNat ≤ last.toNat → ∃ t r,
    exec (.dmp start last) s = .next t ∧ t.block = s.block ∧ t.rsp = some r ∧
    ∀ n, n ≤ last.toNat - start.toNat → ∃ x u q, r.dump[n]? = some x ∧
      exec (.rdb (start + BitVec.ofNat 16 n)) s = .next u ∧ u.rsp = some q ∧ q.rdata = x.b.zeroExtend 16

/-- R162: the rows are the stream cut from its first item into rows of 16, the last one alone possibly short. That the block
carries no row marks is the spec's decision D20 (log 17). -/
def Obligations.DumpRowsCutTheStream : Prop :=
  ∀ items : List DumpItem,
    (dumpRows items).flatten = items ∧
    (dumpRows items).length = (items.length + 15) / 16 ∧
    ∀ k row, (dumpRows items)[k]? = some row → row.length = min 16 (items.length - 16 * k) ∧ 0 < row.length ∧
      ∀ j, j < row.length → row[j]? = items[16 * k + j]?

/-- R163 (layout: no contract; log 17): the listing of a dump has one line for each row. A line has the address of the row's
first item as base, exactly the bytes of its items, `16 − length` blank placeholders (none in a row that is not the last,
`16 − (n mod 16)` in a short last row), and exactly one character for each item: the byte's where it is printable, else
`.`. -/
def Obligations.ListingShowsEachRow : Prop :=
  ∀ (s : State) (start last : Addr), start.toNat ≤ last.toNat → ∃ t r,
    exec (.dmp start last) s = .next t ∧ t.rsp = some r ∧ (listing start r.dump).length = (dumpRows r.dump).length ∧
    ∀ (k : Nat) (line : ListingRow) (row : List DumpItem), (listing start r.dump)[k]? = some line → (dumpRows r.dump)[k]? = some row →
      (∃ x : DumpItem, row[0]? = some x ∧ line.base = x.a) ∧
      line.bytes = row.map (·.b) ∧ line.blanks = 16 - row.length ∧ line.ascii.length = row.length ∧
      (k + 1 < (dumpRows r.dump).length → line.blanks = 0) ∧
      (k + 1 = (dumpRows r.dump).length → r.dump.length % 16 ≠ 0 → line.blanks = 16 - r.dump.length % 16) ∧
      ∀ (j : Nat) (x : DumpItem), row[j]? = some x →
        line.ascii[j]? = some (if 32 ≤ x.b.toNat ∧ x.b.toNat ≤ 126 then Char.ofNat x.b.toNat else '.')

/-! Load and lifecycle. -/

/-- R175 and R176: from any state, `INIT` and `CLR` leave every cell `0x00` and `romLoaded` 0. -/
def Obligations.InitAndClearZeroEverything : Prop :=
  ∀ s : State, ∃ t,
    exec .init s = .next t ∧ exec .clr s = .next t ∧
    (∀ n, n < 32768 → t.block.rom.read n = 0#8) ∧ (∀ n, n < 8192 → t.block.vram.read n = 0#8) ∧
    (∀ n, n < 8192 → t.block.wram.read n = 0#8) ∧ t.block.romLoaded = false ∧
    t.rsp = some okay ∧ t.inputs = s.inputs ∧ t.cart = s.cart

/-- R177 (derived in the spec): `INIT` and `CLR` are idempotent, in any order. -/
def Obligations.InitAndClearAreIdempotent : Prop :=
  ∀ (s : State) (i j : Instr), (i = .init ∨ i = .clr) → (j = .init ∨ j = .clr) →
    ∃ t, exec i s = .next t ∧ exec j t = .next t

/-- R170: `LOAD` of the value on `cart`, in all three cases, and its frame: the cells beyond the image, `vram`, `wram` and
the ports are unchanged. That a failed load keeps `romLoaded` is the spec's decision D15 (R173; log 11), that the cells
beyond the image keep their value its decision D17 (R171) and that a long image is cut without a report its decision D16
(R172; log 12), hence basis derived. -/
def Obligations.LoadStoresTheImage : Prop :=
  ∀ s : State,
    (s.cart = .absent ∨ s.cart = .image [] → exec .load s = .next { s with rsp := some (failed .ioFailure) }) ∧
    (∀ bytes, s.cart = .image bytes → bytes ≠ [] → ∃ t, exec .load s = .next t ∧
      (∀ n, n < min bytes.length 32768 → bytes[n]? = some (t.block.rom.read n)) ∧
      (∀ n, min bytes.length 32768 ≤ n → t.block.rom.read n = s.block.rom.read n) ∧
      t.block.romLoaded = true ∧ t.block.vram = s.block.vram ∧ t.block.wram = s.block.wram ∧
      t.rsp = some okay ∧ t.inputs = s.inputs ∧ t.cart = s.cart)

/-- The loop of R170: `rom` after a load is what storing `image[0]` to `image[k − 1]` one after another leaves; the cut at
32768 bytes and the kept tail are the spec's decisions D16 and D17 (log 12). The premise is the invariant that every step
keeps. -/
def Obligations.LoadEqualsTheLoop : Prop :=
  ∀ (s : State) (bytes : List Byte), s.Inv → s.cart = .image bytes → bytes ≠ [] → ∃ t, exec .load s = .next t ∧
    t.block.rom = storeUpward s.block.rom 0 (bytes.take 32768)

/-- R179: the law of a full load, and of a missing file after `INIT`. -/
def Obligations.FullLoadIsReadBack : Prop :=
  (∀ (s : State) (bytes : List Byte), s.cart = .image bytes → bytes.length = 32768 → ∃ t,
    exec .load s = .next t ∧ romLoadedOut t = true ∧
    ∀ a : Addr, a.toNat ≤ 0x7FFF → ∃ u r x, bytes[a.toNat]? = some x ∧ exec (.rdb a) t = .next u ∧ u.rsp = some r ∧
      r.rdata = x.zeroExtend 16) ∧
  (∀ s : State, s.cart = .absent → ∃ t u r, exec .init s = .next t ∧ exec .load t = .next u ∧ u.rsp = some r ∧
    r.ok = false ∧ romLoadedOut u = false)

/-- R26: only a successful `LOAD` sets `romLoaded`, only `INIT` and `CLR` clear it, everything else leaves it. That a failed
load after a good one leaves it set is the spec's decision D15 (log 11), and that the reserved codes leave it D9 (log 7). -/
def Obligations.OnlyLoadSetsRomLoaded : Prop :=
  ∀ (i : Instr) (s : State), ∃ t r, exec i s = .next t ∧ t.rsp = some r ∧
    (t.block.romLoaded = true ↔
      (i = .load ∧ r.ok = true) ∨ (s.block.romLoaded = true ∧ i ≠ .init ∧ i ≠ .clr))

/-- R34: `romLoaded` gates nothing: no response and no cell depends on it, and ROM reads zero after reset before any
load. The reserved codes are taken as answered (D9; log 7), hence basis derived. -/
def Obligations.RomLoadedGatesNothing : Prop :=
  (∀ (i : Instr) (s : State) (f : Bool), ∃ t u,
    exec i s = .next t ∧ exec i { s with block := { s.block with romLoaded := f } } = .next u ∧
    t.rsp = u.rsp ∧ t.block.rom = u.block.rom ∧ t.block.vram = u.block.vram ∧ t.block.wram = u.block.wram) ∧
  (∀ (s : State) (a : Addr), s.block = Block.reset → inRom a.toNat → ∃ t r,
    exec (.rdb a) s = .next t ∧ t.rsp = some r ∧ r.rdata = 0x0000#16)

/-! Reserved codes, reports, paths. -/

/-- The reserved codes by the spec's decision D9 (R80), followed here rather than refused (log 7). -/
def Obligations.ReservedCodesReportIllegalOp : Prop :=
  ∀ (i : Instr) (s : State), isReserved i → exec i s = .next { s with rsp := some (failed .illegalOp) }

/-- R78 and R197: `ok = 1` exactly when there is no error, and each error class belongs to its own operations. The numbers of
the classes are the spec's decision D8, and the class of the reserved codes its decision D9 (log 7). -/
def Obligations.ReportsAreExactAndOwned : Prop :=
  ∀ (i : Instr) (s : State), ∃ t r, exec i s = .next t ∧ t.rsp = some r ∧
    (r.ok = true ↔ r.err = .noError) ∧ (r.err = .roViolation ↔ r.viol ≠ 0#2) ∧
    (r.err = .roViolation → (∃ a v, i = .wrb a v) ∨ ∃ a v, i = .wrw a v) ∧
    (r.err = .ioFailure → i = .load) ∧ (r.err = .badDump → ∃ a b, i = .dmp a b) ∧
    (r.err = .illegalOp ↔ isReserved i)

/-- R201: each path writes only the storage it may write, and what it does depends only on the storage it may read and, for
the load path, on `cart`. The pin `rst` is on the lifecycle path (D18; log 3). Basis derived: the reserved codes are not in
the table of R201 and are taken as reaching no storage (D9; log 7); that a failed load leaves the block unchanged is D15
(log 11), and which cells a load writes rests on D16 and D17 (log 12). -/
def Obligations.PathsKeepTheirRights : Prop :=
  (∀ (i : Instr) (s : State), ∃ t, exec i s = .next t ∧
    (∀ k, (pathOf i).mayWrite k = false → t.block.bank k = s.block.bank k) ∧
    (pathOf i = .lifecycle → (∀ k o, (t.block.bank k).read o = 0#8) ∧ t.block.romLoaded = false) ∧
    (pathOf i = .load → t.block.romLoaded = true ∨ t.block = s.block) ∧
    (∀ bytes, pathOf i = .load → s.cart = .image bytes → ∀ n, min bytes.length 32768 ≤ n →
      t.block.rom.read n = s.block.rom.read n) ∧
    (pathOf i = .bus ∨ pathOf i = .noAccess → t.block.romLoaded = s.block.romLoaded)) ∧
  (∀ (i : Instr) (s s' : State), (∀ k, (pathOf i).mayRead k = true → s'.block.bank k = s.block.bank k) →
    (pathOf i = .load → s'.cart = s.cart) → ∃ t t',
    exec i s = .next t ∧ exec i s' = .next t' ∧ t.rsp = t'.rsp ∧
    (pathOf i = .bus → ∀ k, t.block.bank k = t'.block.bank k) ∧
    (pathOf i = .lifecycle → t.block = t'.block) ∧
    (∀ bytes, pathOf i = .load → s.cart = .image bytes →
      (∀ n, n < min bytes.length 32768 → t.block.rom.read n = t'.block.rom.read n) ∧
      (bytes ≠ [] → t.block.romLoaded = t'.block.romLoaded))) ∧
  (∀ (s s' : State) (x x' : Input) (rest rest' : List Input), s.inputs = x :: rest → s'.inputs = x' :: rest' →
    pathOfInput x = .lifecycle → pathOfInput x' = .lifecycle → ∃ t t',
    step s = .next t ∧ step s' = .next t' ∧ t.block = t'.block ∧
    (∀ k o, (t.block.bank k).read o = 0#8) ∧ t.block.romLoaded = false)

/-- R14: what an operation does depends on the request, on `cart` and on the block, and on nothing else the state holds. The
reserved codes are taken as answered (D9; log 7). -/
def Obligations.NothingElseIsAnInput : Prop :=
  ∀ (i : Instr) (s s' : State), s'.block = s.block → s'.cart = s.cart → ∃ t t',
    exec i s = .next t ∧ exec i s' = .next t' ∧ t.block = t'.block ∧ t.rsp = t'.rsp

/-! The request word. -/

/-- The encoding of R72 to R74 (the spec's decision D5) loses nothing: decoding an encoded operation gives it back, with every
operand at every value. -/
def Obligations.DecodeOfEncode : Prop := ∀ i : Instr, decode (encode i) = i

/-- R73 (the spec's decision D10; log 14): a field an operation does not use is ignored. -/
def Obligations.UnusedFieldsAreIgnored : Prop :=
  ∀ (op : BitVec 4) (a a' : Addr) (d d' : Word) (x x' v : Byte),
    (op ∈ [0x0#4, 0x2#4, 0x4#4, 0x5#4, 0x6#4] → decode (op ++ a ++ d) = decode (op ++ a ++ d')) ∧
    (op = 0x1#4 → decode (op ++ a ++ x ++ v) = decode (op ++ a ++ x' ++ v)) ∧
    (0x8#4 ≤ op → decode (op ++ a ++ d) = decode (op ++ a' ++ d'))

/-- R75 (derived in the spec): bit 35 of the request separates what the requester presents from the rest. -/
def Obligations.HighBitSeparatesTheRequester : Prop :=
  ∀ w : ReqWord, w.getLsbD 35 = false ↔ presenterOf (decode w) = .requester

/-- The report of a malformed dump is met exactly by a broken duty of R225, `DMP` only with `start <= end`; the report of a
reserved code exactly by a code that R74 has nobody present. That the second counts as broken beside the first is the
model's choice (D9; log 7), and so is the list of what is presented (log 1). The other duties of R225 are not spoken of. -/
def Obligations.MalformedDumpAndReservedCodeAreReported : Prop :=
  ∀ (s : State) (w : ReqWord) (c : Cart) (rest : List Input), s.inputs = .op w c :: rest → ∃ t r,
    step s = .next t ∧ t.rsp = some r ∧
    (dutyKept (.op w c) = false ↔ r.err = .badDump ∨ r.err = .illegalOp)

/-- A few request words of `95_test_vectors.md`, as the spec writes them out. -/
def Obligations.RequestWordsDecodeAsWritten : Prop :=
  decode 0x080000000#36 = .rdb 0x8000#16 ∧ decode 0x180000042#36 = .wrb 0x8000#16 0x42#8 ∧
  decode 0x27FFF0000#36 = .rdw 0x7FFF#16 ∧ decode 0x3C0001234#36 = .wrw 0xC000#16 0x1234#16 ∧
  decode 0x481230000#36 = .xlt 0x8123#16 ∧ decode 0x5FFFFFFFF#36 = .vld 0xFFFF#16 ∧
  decode 0x6A0000000#36 = .rgn 0xA000#16 ∧ decode 0x79FFEA001#36 = .dmp 0x9FFE#16 0xA001#16 ∧
  decode 0x800001234#36 = .init ∧ decode 0x900000000#36 = .clr ∧ decode 0xA00000000#36 = .load ∧
  decode 0xB00000000#36 = .reservedB ∧ decode 0xFFFFFFFFF#36 = .reservedF

/-! The step. -/

/-- One step runs the decoded operation on what was presented, whole (R52, R55, R75). That the presentation is a list is the
model's choice (log 1). -/
def Obligations.StepRunsTheDecodedOperation : Prop :=
  ∀ (s : State) (w : ReqWord) (c : Cart) (rest : List Input), s.inputs = .op w c :: rest →
    step s = exec (decode w) { s with inputs := rest, cart := c }

/-- The pin `rst` leaves the reset state of R32 (the spec's decision D18), and with nothing presented nothing changes; that
neither gives a response is the model's choice (logs 2, 3). -/
def Obligations.ResetPinAndIdleStep : Prop :=
  (∀ (s : State) (rest : List Input), s.inputs = .rst :: rest →
    step s = .next { s with inputs := rest, block := Block.reset, rsp := none }) ∧
  (∀ s : State, s.inputs = [] → step s = .next { s with rsp := none })

/-- R32 and R221: the reset state, seen in the cells and from the bus, and reached by `INIT` and by the pin `rst`. That the
pin maps to this state is the spec's decision D18 (R220), and that it is taken from the input list is the model's choice
(logs 1, 3), hence basis derived. -/
def Obligations.ResetStateSeenFromTheBus : Prop :=
  (∀ n, State.reset.block.rom.read n = 0#8 ∧ State.reset.block.vram.read n = 0#8 ∧
    State.reset.block.wram.read n = 0#8) ∧
  (∀ a : Addr, State.reset.block.busRead8 a = if hitAt a then 0#8 else 0xFF#8) ∧ romLoadedOut State.reset = false ∧
  (∀ s : State, ∃ t, exec .init s = .next t ∧ t.block = State.reset.block) ∧
  (∀ (s : State) (rest : List Input), s.inputs = .rst :: rest → ∃ t, step s = .next t ∧ t.block = State.reset.block)

/-- R231 (derived in the spec): every operation ends, so every step that runs one does, and so does every run of steps. That
a step takes exactly the oldest thing presented (log 1), answers also when nothing is presented (log 2), and answers a reserved
code, which R231 does not list, with the response of R80 (D9) where U6 asks to refuse (log 7), is the model's choice. -/
def Obligations.EveryStepAndRunCompletes : Prop :=
  (∀ s : State, ∃ t, step s = .next t ∧ t.inputs = s.inputs.tail) ∧ ∀ (k : Nat) (s : State), runsSafely k s

/-- The invariant holds after reset. -/
def Obligations.ResetHasInvariant : Prop := State.reset.Inv

/-- R20 and R27: every step keeps every storage array in its canonical form and inside its fixed size. -/
def Obligations.StepKeepsInvariant : Prop := ∀ s t : State, s.Inv → step s = .next t → t.Inv

/-- R28 and R55: whatever is presented, in whatever order, a read of an address with storage returns what the latest write,
load or reset of that cell left, and `romLoaded` what the latest load or reset left; an address without storage reads
`0xFF` throughout. It rests on the input list (log 1), on the pin `rst` leaving the reset state (D18; log 3), on a failed
load keeping `romLoaded` (D15; log 11) and on a load keeping the cells beyond its image and cutting a long one (D16, D17;
log 12). A word at `0xFFFF` counts as a write of `0x0000` by D4 (log 6), which changes nothing there, since `0x0000` is
ROM. Reserved codes among what is presented are answered and leave every byte (D9, against U6; log 7), and what follows a
`CLR` works as after `INIT` (D18; log 19). -/
def Obligations.ReadReturnsTheLatestWrite : Prop :=
  ∀ s : State, ∃ t, Host.Core.run core s.inputs.length s = .next t ∧ t.inputs = [] ∧
    (∀ a, hitAt a = true → t.block.busRead8 a = s.inputs.foldl (byteAfter a) (s.block.busRead8 a)) ∧
    (∀ a, hitAt a = false → t.block.busRead8 a = 0xFF#8) ∧
    t.block.romLoaded = s.inputs.foldl loadedAfter s.block.romLoaded
end

