-- ==== Sys2Proof/Laws/Decode.lean ====
section
/-! SUPPORT. The fields of a request word, and the join and split of a word, said once. -/

namespace Sys2Proof

/-- The fields of a word made of fields are those fields (R72). -/
theorem Request.ofWord_append (op : BitVec 4) (a : Addr) (d : Word) :
    Request.ofWord (op ++ a ++ d) = ⟨op, a, d⟩ := by
  unfold Request.ofWord
  congr 1
  · apply BitVec.eq_of_getLsbD_eq
    intro i hi
    rw [BitVec.getLsbD_extractLsb']
    erw [BitVec.getLsbD_append, BitVec.getLsbD_append]
    rw [if_neg (by omega), if_neg (by omega)]
    simp [hi, show 32 + i - 16 - 16 = i by omega]
  · apply BitVec.eq_of_getLsbD_eq
    intro i hi
    rw [BitVec.getLsbD_extractLsb']
    erw [BitVec.getLsbD_append, BitVec.getLsbD_append]
    rw [if_neg (by omega), if_pos (by omega)]
    simp [hi, show 16 + i - 16 = i by omega]
  · apply BitVec.eq_of_getLsbD_eq
    intro i hi
    rw [BitVec.getLsbD_extractLsb']
    erw [BitVec.getLsbD_append]
    rw [if_pos (by omega)]
    simp [hi]

/-- The low byte of a byte extended to a word is the byte. -/
theorem extract_low_zeroExtend (v : Byte) : (v.zeroExtend 16).extractLsb' 0 8 = v := by
  apply BitVec.eq_of_toNat_eq
  have := v.isLt
  simp
  omega

namespace Machine

/-- `low | (high << 8)` is `{high, low}`: the two parts do not overlap (R127). -/
theorem joinWord_eq_append (low high : Byte) : joinWord low high = high ++ low := by
  unfold joinWord
  rw [BitVec.append_def, BitVec.shiftLeftZeroExtend_eq, BitVec.or_comm]
  simp [BitVec.setWidth'_eq]

/-- Splitting a word and joining its halves gives the word back (R127). -/
theorem joinWord_split (v : Word) : joinWord (lowByte v) (highByte v) = v := by
  rw [joinWord_eq_append]
  apply BitVec.eq_of_toNat_eq
  simp only [lowByte, highByte, BitVec.toNat_append, BitVec.extractLsb'_toNat]
  have := v.isLt
  rw [Nat.shiftRight_eq_div_pow, Nat.shiftRight_eq_div_pow, ← Nat.shiftLeft_add_eq_or_of_lt (by omega),
    Nat.shiftLeft_eq]
  omega

/-- The address of the second byte is never the address of the first (R120). -/
theorem inc16_ne (a : Addr) : inc16 a ≠ a := by
  intro h
  have h := congrArg BitVec.toNat h
  have := a.isLt
  simp [inc16] at h
  omega

end Machine

end Sys2Proof
end

