-- ==== Sys2Proof/Laws/Map.lean ====
section
/-! SUPPORT. What the address translator can answer, said once. -/

namespace Sys2Proof.Machine

/-- Every answer of the translator, with the range it belongs to. -/
theorem decodeAddr_cases (A : Nat) :
    (A ≤ 0x7FFF ∧ decodeAddr A = .cell .rom A) ∨
    (0x8000 ≤ A ∧ A ≤ 0x9FFF ∧ decodeAddr A = .cell .vram (A - 0x8000)) ∨
    (0xC000 ≤ A ∧ A ≤ 0xDFFF ∧ decodeAddr A = .cell .wram (A - 0xC000)) ∨
    ((0xA000 ≤ A ∧ A ≤ 0xBFFF ∨ 0xE000 ≤ A ∧ A ≤ 0xFFFF) ∧ decodeAddr A = .unmapped) ∨
    (0xFFFF < A ∧ decodeAddr A = .invalid) := by
  by_cases h0 : 0xFFFF < A
  · exact .inr (.inr (.inr (.inr ⟨h0, by simp [decodeAddr, Config.addrMax, h0]⟩)))
  have hA : ¬ Config.addrMax < A := h0
  by_cases h1 : A ≤ 0x7FFF
  · refine .inl ⟨h1, ?_⟩
    simp [decodeAddr, hA, regionTable, MapRow.covers, Config.romStart, Config.romEnd, h1]
  by_cases h2 : 0x8000 ≤ A ∧ A ≤ 0x9FFF
  · refine .inr (.inl ⟨h2.1, h2.2, ?_⟩)
    simp [decodeAddr, hA, regionTable, MapRow.covers, Config.romStart, Config.romEnd, Config.vramStart,
      Config.vramEnd, h1, h2]
  by_cases h3 : 0xC000 ≤ A ∧ A ≤ 0xDFFF
  · refine .inr (.inr (.inl ⟨h3.1, h3.2, ?_⟩))
    have h4 : ¬ A ≤ 0x9FFF := by omega
    simp [decodeAddr, hA, regionTable, MapRow.covers, Config.romStart, Config.romEnd, Config.vramStart,
      Config.vramEnd, Config.wramStart, Config.wramEnd, h1, h3, h4]
  · refine .inr (.inr (.inr (.inl ⟨by omega, ?_⟩)))
    have e2 : (decide (0x8000 ≤ A) && decide (A ≤ 0x9FFF)) = false := by simpa using h2
    have e3 : (decide (0xC000 ≤ A) && decide (A ≤ 0xDFFF)) = false := by simpa using h3
    simp [decodeAddr, hA, regionTable, MapRow.covers, Config.romStart, Config.romEnd, Config.vramStart,
      Config.vramEnd, Config.wramStart, Config.wramEnd, h1, List.find?, e2, e3]

/-- The offset of a cell is inside its storage array. -/
theorem decodeAddr_offset_lt {A : Nat} {k : Bank} {o : Nat} (h : decodeAddr A = .cell k o) : o < k.size := by
  rcases decodeAddr_cases A with ⟨_, e⟩ | ⟨_, _, e⟩ | ⟨_, _, e⟩ | ⟨_, e⟩ | ⟨_, e⟩ <;> rw [e] at h <;>
    cases h <;> simp only [Bank.size, Config.romSize, Config.vramSize, Config.wramSize] <;> omega

end Sys2Proof.Machine
end

