-- ==== Sys2Proof/Laws/Memory.lean ====
section
/-! SUPPORT. The laws of the storage arrays: what a read gives after every memory operation, that every memory operation
keeps the canonical form, and that two canonical arrays with the same cells are the same list. -/

namespace Sys2Proof.Machine

/-- No cell of the list has offset `o`. -/
def Memory.misses (m : Memory) (o : Nat) : Prop := ∀ c ∈ m, c.1 ≠ o

theorem Memory.read_of_misses {m : Memory} {o : Nat} (h : m.misses o) : m.read o = Memory.unlisted := by
  induction m with
  | nil => rfl
  | cons c m ih =>
    obtain ⟨k, v⟩ := c
    have hk : o ≠ k := fun e => h (k, v) (by simp) e.symm
    simp only [Memory.read, if_neg hk]
    exact ih fun d hd => h d (by simp [hd])

theorem Memory.read_append_of_misses {m n : Memory} {o : Nat} (h : m.misses o) : (m ++ n).read o = n.read o := by
  induction m with
  | nil => rfl
  | cons c m ih =>
    obtain ⟨k, v⟩ := c
    have hk : o ≠ k := fun e => h (k, v) (by simp) e.symm
    simp only [List.cons_append, Memory.read, if_neg hk]
    exact ih fun d hd => h d (by simp [hd])

theorem Memory.read_append_of_misses_right {m n : Memory} {o : Nat} (h : n.misses o) :
    (m ++ n).read o = m.read o := by
  induction m with
  | nil => simpa [Memory.read] using Memory.read_of_misses h
  | cons c m ih => obtain ⟨k, v⟩ := c; simp only [List.cons_append, Memory.read, ih]

theorem Memory.misses_filter {m : Memory} {q : Nat → Bool} {o : Nat} (h : q o = false) :
    (Memory.misses (m.filter fun c => q c.1) o) := by
  intro c hc e
  have := (List.mem_filter.1 hc).2
  simp_all

theorem Memory.read_filter {m : Memory} {q : Nat → Bool} {o : Nat} (h : q o = true) :
    Memory.read (m.filter fun c => q c.1) o = m.read o := by
  induction m with
  | nil => rfl
  | cons c m ih =>
    obtain ⟨k, v⟩ := c
    by_cases hq : q k = true
    · simp only [List.filter_cons, hq, if_true, Memory.read, ih]
    · have hk : o ≠ k := fun e => hq (e ▸ h)
      simp only [List.filter_cons, hq, Memory.read, if_neg hk]
      exact ih

theorem Memory.single_mem {o : Nat} {v : Byte} {c : Host.Cell} (h : c ∈ Memory.single o v) :
    c = (o, v) ∧ v ≠ Memory.unlisted := by
  unfold Memory.single at h
  split at h
  · cases h
  · exact ⟨by simpa using h, ‹_›⟩

theorem Memory.read_single (o : Nat) (v : Byte) : (Memory.single o v).read o = v := by
  unfold Memory.single
  split
  · exact Eq.symm ‹_›
  · simp [Memory.read]

theorem Memory.single_misses {o p : Nat} (v : Byte) (h : p ≠ o) : (Memory.single o v).misses p := fun _ hc e =>
  h (by rw [(Memory.single_mem hc).1] at e; exact e.symm)

/-- A write is seen at its own cell and at no other, whatever the list. -/
theorem Memory.read_write (m : Memory) (o p : Nat) (v : Byte) :
    (m.write o v).read p = if p = o then v else m.read p := by
  unfold Memory.write
  rcases Nat.lt_trichotomy p o with h | h | h
  · have hs : Memory.misses (m.filter fun c => decide (o < c.1)) p :=
      Memory.misses_filter (q := fun k => decide (o < k)) (by simpa using Nat.le_of_lt h)
    rw [Memory.read_append_of_misses_right hs,
      Memory.read_append_of_misses_right (Memory.single_misses v (Nat.ne_of_lt h)),
      Memory.read_filter (q := fun k => decide (k < o)) (by simpa using h), if_neg (Nat.ne_of_lt h)]
  · subst h
    have hl : Memory.misses (m.filter fun c => decide (c.1 < p)) p :=
      Memory.misses_filter (q := fun k => decide (k < p)) (by simp)
    have hr : Memory.misses (m.filter fun c => decide (p < c.1)) p :=
      Memory.misses_filter (q := fun k => decide (p < k)) (by simp)
    rw [Memory.read_append_of_misses_right hr, Memory.read_append_of_misses hl, Memory.read_single, if_pos rfl]
  · have hl : Memory.misses (m.filter fun c => decide (c.1 < o)) p :=
      Memory.misses_filter (q := fun k => decide (k < o)) (by simpa using Nat.le_of_lt h)
    rw [List.append_assoc, Memory.read_append_of_misses hl,
      Memory.read_append_of_misses (Memory.single_misses v (Nat.ne_of_gt h)),
      Memory.read_filter (q := fun k => decide (o < k)) (by simpa using h), if_neg (Nat.ne_of_gt h)]

theorem Memory.read_write_self (m : Memory) (o : Nat) (v : Byte) : (m.write o v).read o = v := by
  simp [Memory.read_write]

theorem Memory.read_write_ne (m : Memory) {o p : Nat} (v : Byte) (h : p ≠ o) :
    (m.write o v).read p = m.read p := by
  simp [Memory.read_write, h]

theorem Memory.listFrom_mem {o : Nat} {l : List Byte} {c : Host.Cell} (h : c ∈ Memory.listFrom o l) :
    o ≤ c.1 ∧ c.1 < o + l.length ∧ c.2 ≠ Memory.unlisted := by
  induction l generalizing o with
  | nil => cases h
  | cons v l ih =>
    rcases List.mem_append.1 h with h | h
    · obtain ⟨rfl, hv⟩ := Memory.single_mem h
      exact ⟨Nat.le_refl _, by simp, hv⟩
    · obtain ⟨h1, h2, h3⟩ := ih h
      exact ⟨by omega, by simp only [List.length_cons]; omega, h3⟩

theorem Memory.read_listFrom {o i : Nat} {l : List Byte} (h : i < l.length) :
    (Memory.listFrom o l).read (o + i) = l[i] := by
  induction l generalizing o i with
  | nil => cases h
  | cons v l ih =>
    cases i with
    | zero =>
      have hm : (Memory.listFrom (o + 1) l).misses o := fun c hc e => by
        have := (Memory.listFrom_mem hc).1; omega
      simpa [Memory.listFrom, Memory.read_append_of_misses_right hm] using Memory.read_single o v
    | succ i =>
      have hi : i < l.length := by simpa using h
      have := ih (o := o + 1) hi
      rw [show o + (i + 1) = o + 1 + i by omega]
      simpa [Memory.listFrom,
        Memory.read_append_of_misses (Memory.single_misses v (show o + 1 + i ≠ o by omega))] using this

/-- Stored bytes are read back at the offsets 0, 1, ...; every cell beyond them keeps its value. -/
theorem Memory.read_overlay (m : Memory) (l : List Byte) (i : Nat) :
    (m.overlay l).read i = (l[i]?).getD (m.read i) := by
  unfold Memory.overlay
  by_cases h : i < l.length
  · have hr : Memory.misses (m.filter fun c => decide (l.length ≤ c.1)) i :=
      Memory.misses_filter (q := fun k => decide (l.length ≤ k)) (by simpa using h)
    have := Memory.read_listFrom (o := 0) h
    rw [Memory.read_append_of_misses_right hr]
    simpa [h] using this
  · have hm : (Memory.listFrom 0 l).misses i := fun c hc e => by
      have := (Memory.listFrom_mem hc).2.1; omega
    rw [Memory.read_append_of_misses hm,
      Memory.read_filter (q := fun k => decide (l.length ≤ k)) (by simpa using Nat.le_of_not_lt h)]
    simp [List.getElem?_eq_none (Nat.le_of_not_lt h)]

theorem Memory.wf_nil (size : Nat) : Memory.wf size [] := ⟨List.Pairwise.nil, by simp⟩

theorem Memory.pairwise_single (o : Nat) (v : Byte) :
    (Memory.single o v).Pairwise (fun c d : Host.Cell => c.1 < d.1) := by
  unfold Memory.single; split <;> simp

/-- A write inside the array keeps the canonical form. -/
theorem Memory.wf_write {size : Nat} {m : Memory} (h : m.wf size) {o : Nat} (ho : o < size) (v : Byte) :
    (m.write o v).wf size := by
  obtain ⟨hp, hc⟩ := h
  refine ⟨?_, ?_⟩
  · refine List.pairwise_append.2 ⟨List.pairwise_append.2
      ⟨hp.sublist List.filter_sublist, Memory.pairwise_single o v, ?_⟩,
      hp.sublist List.filter_sublist, ?_⟩
    · intro c hcm d hd
      rw [(Memory.single_mem hd).1]
      simpa using (List.mem_filter.1 hcm).2
    · intro c hcm d hd
      have hd' : o < d.1 := by simpa using (List.mem_filter.1 hd).2
      rcases List.mem_append.1 hcm with hcm | hcm
      · have : c.1 < o := by simpa using (List.mem_filter.1 hcm).2
        omega
      · rw [(Memory.single_mem hcm).1]; exact hd'
  · intro c hcm
    rcases List.mem_append.1 hcm with hcm | hcm
    · rcases List.mem_append.1 hcm with hcm | hcm
      · exact hc c (List.mem_filter.1 hcm).1
      · obtain ⟨rfl, hv⟩ := Memory.single_mem hcm
        exact ⟨hv, ho⟩
    · exact hc c (List.mem_filter.1 hcm).1

theorem Memory.pairwise_listFrom (o : Nat) (l : List Byte) :
    (Memory.listFrom o l).Pairwise (fun c d : Host.Cell => c.1 < d.1) := by
  induction l generalizing o with
  | nil => exact List.Pairwise.nil
  | cons v l ih =>
    refine List.pairwise_append.2 ⟨Memory.pairwise_single o v, ih (o + 1), ?_⟩
    intro c hcm d hd
    rw [(Memory.single_mem hcm).1]
    exact (Memory.listFrom_mem hd).1

/-- Storing at most `size` bytes keeps the canonical form. -/
theorem Memory.wf_overlay {size : Nat} {m : Memory} (h : m.wf size) {l : List Byte} (hl : l.length ≤ size) :
    (m.overlay l).wf size := by
  obtain ⟨hp, hc⟩ := h
  refine ⟨List.pairwise_append.2 ⟨Memory.pairwise_listFrom 0 l, hp.sublist List.filter_sublist, ?_⟩, ?_⟩
  · intro c hcm d hd
    have := (Memory.listFrom_mem hcm).2.1
    have : l.length ≤ d.1 := by simpa using (List.mem_filter.1 hd).2
    omega
  · intro c hcm
    rcases List.mem_append.1 hcm with hcm | hcm
    · obtain ⟨-, h2, h3⟩ := Memory.listFrom_mem hcm
      exact ⟨h3, by omega⟩
    · exact hc c (List.mem_filter.1 hcm).1

theorem Memory.read_of_mem {m : Memory} (hp : m.Pairwise (fun c d : Host.Cell => c.1 < d.1)) {c : Host.Cell}
    (h : c ∈ m) : m.read c.1 = c.2 := by
  induction m with
  | nil => cases h
  | cons d m ih =>
    obtain ⟨k, v⟩ := d
    obtain ⟨hd, hp⟩ := List.pairwise_cons.1 hp
    rcases List.mem_cons.1 h with rfl | h
    · simp [Memory.read]
    · have : c.1 ≠ k := Nat.ne_of_gt (hd c h)
      simp only [Memory.read, if_neg this, ih hp h]

/-- A canonical array lists exactly the cells that differ from the unlisted value. -/
theorem Memory.mem_iff_read {size : Nat} {m : Memory} (h : m.wf size) (c : Host.Cell) :
    c ∈ m ↔ m.read c.1 = c.2 ∧ c.2 ≠ Memory.unlisted := by
  refine ⟨fun hc => ⟨Memory.read_of_mem h.1 hc, (h.2 c hc).1⟩, fun ⟨hr, hv⟩ => ?_⟩
  by_contra hn
  by_cases hk : ∃ d ∈ m, d.1 = c.1
  · obtain ⟨d, hd, e⟩ := hk
    have hdr := Memory.read_of_mem h.1 hd
    rw [e, hr] at hdr
    exact hn (by rw [show c = d from Prod.ext e.symm hdr]; exact hd)
  · have : m.misses c.1 := fun d hd e => hk ⟨d, hd, e⟩
    exact hv (hr ▸ Memory.read_of_misses this)

/-- Two canonical arrays with the same cells are the same list. -/
theorem Memory.ext_of_wf {size : Nat} {m n : Memory} (hm : m.wf size) (hn : n.wf size)
    (h : ∀ o, m.read o = n.read o) : m = n := by
  have hs : ∀ c, c ∈ m ↔ c ∈ n := fun c => by rw [Memory.mem_iff_read hm, Memory.mem_iff_read hn, h]
  have irr : ∀ l : Memory, l.Pairwise (fun c d : Host.Cell => c.1 < d.1) → l.Nodup := fun l hl =>
    hl.imp fun hlt e => by rw [e] at hlt; exact Nat.lt_irrefl _ hlt
  have hperm : m.Perm n := (List.perm_ext_iff_of_nodup (irr m hm.1) (irr n hn.1)).2 hs
  exact hperm.eq_of_pairwise (fun a b _ _ h1 h2 => absurd h1 (Nat.lt_asymm h2)) hm.1 hn.1

end Sys2Proof.Machine
end

