-- ==== Sys2Proof/Laws/State.lean ====
section
/-! SUPPORT. One lemma per field per update of the state records, each true by rfl, so that no later proof unfolds a
record update. -/

namespace Sys2Proof.Machine

@[simp] theorem Block.bank_rom (b : Block) : b.bank .rom = b.rom := rfl
@[simp] theorem Block.bank_vram (b : Block) : b.bank .vram = b.vram := rfl
@[simp] theorem Block.bank_wram (b : Block) : b.bank .wram = b.wram := rfl

@[simp] theorem Block.setBank_romLoaded (b : Block) (k : Bank) (m : Memory) :
    (b.setBank k m).romLoaded = b.romLoaded := by cases k <;> rfl

@[simp] theorem Block.bank_setBank_self (b : Block) (k : Bank) (m : Memory) : (b.setBank k m).bank k = m := by
  cases k <;> rfl

theorem Block.bank_setBank_ne (b : Block) {j k : Bank} (m : Memory) (h : j ≠ k) :
    (b.setBank k m).bank j = b.bank j := by
  cases j <;> cases k <;> first | rfl | exact absurd rfl h

@[simp] theorem Block.zeroed_bank (b : Block) (k : Bank) : b.zeroed.bank k = [] := by cases k <;> rfl
@[simp] theorem Block.zeroed_romLoaded (b : Block) : b.zeroed.romLoaded = false := rfl

@[simp] theorem Block.loaded_rom (b : Block) (l : List Byte) :
    (b.loaded l).rom = b.rom.overlay (imageTaken l) := rfl
@[simp] theorem Block.loaded_vram (b : Block) (l : List Byte) : (b.loaded l).vram = b.vram := rfl
@[simp] theorem Block.loaded_wram (b : Block) (l : List Byte) : (b.loaded l).wram = b.wram := rfl
@[simp] theorem Block.loaded_romLoaded (b : Block) (l : List Byte) : (b.loaded l).romLoaded = true := rfl

@[simp] theorem State.reset_block : State.reset.block = Block.reset := rfl
@[simp] theorem State.reset_inputs : State.reset.inputs = [] := rfl
@[simp] theorem State.reset_cart : State.reset.cart = .absent := rfl
@[simp] theorem State.reset_rsp : State.reset.rsp = none := rfl

@[simp] theorem idle_block (s : State) : (idle s).block = s.block := rfl
@[simp] theorem idle_inputs (s : State) : (idle s).inputs = s.inputs := rfl
@[simp] theorem idle_cart (s : State) : (idle s).cart = s.cart := rfl
@[simp] theorem idle_rsp (s : State) : (idle s).rsp = none := rfl

@[simp] theorem resetPin_block (s : State) : (resetPin s).block = s.block.zeroed := rfl
@[simp] theorem resetPin_inputs (s : State) : (resetPin s).inputs = s.inputs := rfl
@[simp] theorem resetPin_cart (s : State) : (resetPin s).cart = s.cart := rfl
@[simp] theorem resetPin_rsp (s : State) : (resetPin s).rsp = none := rfl

@[simp] theorem presentNext_block (s : State) (w : ReqWord) : (presentNext s w).block = s.block := rfl
@[simp] theorem presentNext_cart (s : State) (w : ReqWord) : (presentNext s w).cart = s.cart := rfl
@[simp] theorem presentNext_rsp (s : State) (w : ReqWord) : (presentNext s w).rsp = s.rsp := rfl
@[simp] theorem presentNext_inputs (s : State) (w : ReqWord) :
    (presentNext s w).inputs = .op w s.cart :: s.inputs := rfl

@[simp] theorem Response.report_ok (r : Response) (c : ErrClass) : (r.report c).ok = false := rfl
@[simp] theorem Response.report_err (r : Response) (c : ErrClass) : (r.report c).err = c := rfl
@[simp] theorem Response.report_rdata (r : Response) (c : ErrClass) : (r.report c).rdata = r.rdata := rfl
@[simp] theorem Response.report_hit (r : Response) (c : ErrClass) : (r.report c).hit = r.hit := rfl
@[simp] theorem Response.report_region (r : Response) (c : ErrClass) : (r.report c).region = r.region := rfl
@[simp] theorem Response.report_offset (r : Response) (c : ErrClass) : (r.report c).offset = r.offset := rfl
@[simp] theorem Response.report_viol (r : Response) (c : ErrClass) : (r.report c).viol = r.viol := rfl
@[simp] theorem Response.report_dump (r : Response) (c : ErrClass) : (r.report c).dump = r.dump := rfl

@[simp] theorem Response.locate_ok (r : Response) (a : Addr) : (r.locate a).ok = r.ok := rfl
@[simp] theorem Response.locate_err (r : Response) (a : Addr) : (r.locate a).err = r.err := rfl
@[simp] theorem Response.locate_rdata (r : Response) (a : Addr) : (r.locate a).rdata = r.rdata := rfl
@[simp] theorem Response.locate_viol (r : Response) (a : Addr) : (r.locate a).viol = r.viol := rfl
@[simp] theorem Response.locate_dump (r : Response) (a : Addr) : (r.locate a).dump = r.dump := rfl

end Sys2Proof.Machine
end

