-- ==== Sys2Proof/Laws/Ops.lean ====
section
/-! SUPPORT. What each shared operation over the block can do, said once, for later proofs to cite. -/

namespace Sys2Proof.Machine

/-- A bus write stores exactly in the cell its address decodes to, unless that cell is ROM or there is none. -/
theorem Block.writeAt_cases (b : Block) (A : Nat) (v : Byte) :
    (∃ o, decodeAddr A = .cell .rom o ∧ b.writeAt A v = (b, true)) ∨
    (∃ k o, k ≠ .rom ∧ decodeAddr A = .cell k o ∧ b.writeAt A v = (b.setBank k ((b.bank k).write o v), false)) ∨
    ((decodeAddr A = .unmapped ∨ decodeAddr A = .invalid) ∧ b.writeAt A v = (b, false)) := by
  unfold Block.writeAt romWriteProtect Target.sel
  cases h : decodeAddr A with
  | cell k o => cases k <;> simp
  | unmapped => simp
  | invalid => simp

@[simp] theorem Block.writeAt_romLoaded (b : Block) (A : Nat) (v : Byte) :
    (b.writeAt A v).1.romLoaded = b.romLoaded := by
  rcases b.writeAt_cases A v with ⟨_, _, e⟩ | ⟨_, _, _, _, e⟩ | ⟨_, e⟩ <;> rw [e]
  exact Block.setBank_romLoaded ..

@[simp] theorem Block.writeAt_rom (b : Block) (A : Nat) (v : Byte) : (b.writeAt A v).1.rom = b.rom := by
  rcases b.writeAt_cases A v with ⟨_, _, e⟩ | ⟨k, o, hk, _, e⟩ | ⟨_, e⟩ <;> rw [e]
  exact b.bank_setBank_ne (j := .rom) _ (Ne.symm hk)

/-- The canonical form of every storage array, by its name. -/
theorem Block.wf_iff (b : Block) : b.wf ↔ ∀ k, (b.bank k).wf k.size :=
  ⟨fun h k => by cases k <;> [exact h.1; exact h.2.1; exact h.2.2], fun h => ⟨h .rom, h .vram, h .wram⟩⟩

theorem Block.wf_writeAt {b : Block} (h : b.wf) (A : Nat) (v : Byte) : (b.writeAt A v).1.wf := by
  rcases b.writeAt_cases A v with ⟨_, _, e⟩ | ⟨k, o, _, hd, e⟩ | ⟨_, e⟩ <;> rw [e]
  · exact h
  · refine (Block.wf_iff _).2 fun j => ?_
    by_cases hj : j = k
    · subst hj
      simpa using Memory.wf_write ((Block.wf_iff b).1 h j) (decodeAddr_offset_lt hd) v
    · simpa [b.bank_setBank_ne _ hj] using (Block.wf_iff b).1 h j
  · exact h

theorem Block.wf_zeroed (b : Block) : b.zeroed.wf := (Block.wf_iff _).2 fun k => by simpa using Memory.wf_nil _

theorem imageTaken_length_le (l : List Byte) : (imageTaken l).length ≤ Config.romSize := by
  simp only [imageTaken, List.length_take]; omega

theorem Block.wf_loaded {b : Block} (h : b.wf) (l : List Byte) : (b.loaded l).wf := by
  refine (Block.wf_iff _).2 fun k => ?_
  have hk := (Block.wf_iff b).1 h k
  cases k with
  | rom =>
    rw [Block.bank_rom, Block.loaded_rom]
    rw [Block.bank_rom] at hk
    have hl : (imageTaken l).length ≤ Bank.rom.size := by simpa [Bank.size] using imageTaken_length_le l
    exact Memory.wf_overlay hk hl
  | vram => exact hk
  | wram => exact hk

/-- Two addresses that decode to the same cell are the same address (no mirror). -/
theorem decodeAddr_inj {A B : Nat} {k : Bank} {o : Nat} (hA : decodeAddr A = .cell k o)
    (hB : decodeAddr B = .cell k o) : A = B := by
  have e := hA.trans hB.symm
  rcases decodeAddr_cases A with ⟨_, a⟩ | ⟨_, _, a⟩ | ⟨_, _, a⟩ | ⟨_, a⟩ | ⟨_, a⟩ <;>
    rcases decodeAddr_cases B with ⟨_, b⟩ | ⟨_, _, b⟩ | ⟨_, _, b⟩ | ⟨_, b⟩ | ⟨_, b⟩ <;>
      rw [a] at hA e <;> rw [b] at e <;>
        simp only [Target.cell.injEq, reduceCtorEq, true_and, false_and] at hA e <;> omega

/-- A bus write changes what no other address reads. -/
theorem Block.readAt_writeAt_ne (b : Block) {A B : Nat} (v : Byte) (h : B ≠ A) :
    (b.writeAt A v).1.readAt B = b.readAt B := by
  rcases b.writeAt_cases A v with ⟨_, _, e⟩ | ⟨k, o, _, hA, e⟩ | ⟨_, e⟩ <;> rw [e]
  unfold Block.readAt
  cases hB : decodeAddr B with
  | cell j p =>
    by_cases hj : j = k
    · subst hj
      have hp : p ≠ o := fun ep => h (decodeAddr_inj (ep ▸ hB) hA)
      simp [Memory.read_write_ne _ v hp]
    · simp [b.bank_setBank_ne _ hj]
  | unmapped => rfl
  | invalid => rfl

/-- An address in VRAM or WRAM reads what was written to it. -/
theorem Block.readAt_writeAt_self (b : Block) {A : Nat} {k : Bank} {o : Nat} (v : Byte) (hk : k ≠ .rom)
    (h : decodeAddr A = .cell k o) : (b.writeAt A v).1.readAt A = v := by
  rcases b.writeAt_cases A v with ⟨_, hd, _⟩ | ⟨j, p, _, hd, e⟩ | ⟨hd | hd, _⟩ <;> rw [h] at hd <;> cases hd
  · exact absurd rfl hk
  · rw [e]; simp [Block.readAt, h, Memory.read_write_self]

/-- Every way a bus write can leave a read: the written byte, at the address itself in VRAM or WRAM only. -/
theorem Block.readAt_writeAt (b : Block) (A B : Nat) (v : Byte) :
    (b.writeAt A v).1.readAt B =
      if B = A ∧ (decodeAddr A).sel .rom = false ∧ (decodeAddr A).hit = true then v else b.readAt B := by
  by_cases hBA : B = A
  · subst hBA
    rcases b.writeAt_cases B v with ⟨o, hd, e⟩ | ⟨k, o, hk, hd, e⟩ | ⟨hd | hd, e⟩
    · rw [e]; simp [hd, Target.sel]
    · rw [b.readAt_writeAt_self v hk hd]; cases k <;> simp_all [Target.sel, Target.hit]
    all_goals rw [e]; simp [hd, Target.sel, Target.hit]
  · rw [b.readAt_writeAt_ne v hBA, if_neg fun h => hBA h.1]

/-- A bus read looks at the storage arrays and at nothing else. -/
theorem Block.readAt_congr {b c : Block} (h : ∀ k, b.bank k = c.bank k) (A : Nat) : b.readAt A = c.readAt A := by
  simp only [Block.readAt, h]

/-- What a bus write leaves in the storage arrays, and its violation bit, depend on the storage arrays and on nothing
else. -/
theorem Block.writeAt_congr {b c : Block} (h : ∀ k, b.bank k = c.bank k) (A : Nat) (v : Byte) :
    (∀ k, (b.writeAt A v).1.bank k = (c.writeAt A v).1.bank k) ∧ (b.writeAt A v).2 = (c.writeAt A v).2 := by
  unfold Block.writeAt romWriteProtect Target.sel
  cases decodeAddr A with
  | cell j o =>
    cases j with
    | rom => exact ⟨h, rfl⟩
    | vram =>
      refine ⟨fun k => ?_, rfl⟩
      cases k <;> simp [Block.setBank] <;> [exact h .rom; rw [show b.vram = c.vram from h .vram]; exact h .wram]
    | wram =>
      refine ⟨fun k => ?_, rfl⟩
      cases k <;> simp [Block.setBank] <;> [exact h .rom; exact h .vram; rw [show b.wram = c.wram from h .wram]]
  | unmapped => exact ⟨h, rfl⟩
  | invalid => exact ⟨h, rfl⟩

/-- The bytes of a dump are bus reads, so the same holds of the stream. -/
theorem dumpItems_congr {b c : Block} (h : ∀ k, b.bank k = c.bank k) (start : Addr) (n : Nat) :
    dumpItems b start n = dumpItems c start n := by
  simp only [dumpItems, dumpItem, Block.busRead8, Block.readAt_congr h]

theorem dumpRow_length (items : List DumpItem) (k : Nat) :
    (dumpRow items k).length = min 16 (items.length - 16 * k) := by
  simp [dumpRow, Config.dumpRowLen]

theorem dumpRows_length (items : List DumpItem) : (dumpRows items).length = (items.length + 15) / 16 := by
  simp [dumpRows, dumpRowCount, Config.dumpRowLen]

theorem dumpRows_getElem? {items row : List DumpItem} {k : Nat} (h : (dumpRows items)[k]? = some row) :
    row = dumpRow items k := by
  obtain ⟨hk, rfl⟩ := List.getElem?_eq_some_iff.1 h
  simp [dumpRows]

theorem listing_getElem? {start : Addr} {items : List DumpItem} {line : ListingRow} {k : Nat}
    (h : (listing start items)[k]? = some line) : line = listingRow start items k := by
  obtain ⟨hk, rfl⟩ := List.getElem?_eq_some_iff.1 h
  simp [listing]

@[simp] theorem listingRow_base (start : Addr) (items : List DumpItem) (k : Nat) :
    (listingRow start items k).base = dumpAddr start (Config.dumpRowLen * k) := rfl
@[simp] theorem listingRow_bytes (start : Addr) (items : List DumpItem) (k : Nat) :
    (listingRow start items k).bytes = (dumpRow items k).map (·.b) := rfl
@[simp] theorem listingRow_blanks (start : Addr) (items : List DumpItem) (k : Nat) :
    (listingRow start items k).blanks = Config.dumpRowLen - (dumpRow items k).length := rfl
@[simp] theorem listingRow_ascii (start : Addr) (items : List DumpItem) (k : Nat) :
    (listingRow start items k).ascii = (dumpRow items k).map (·.shown) := rfl

/-- `DMP` with `start > end`. -/
theorem exec_dmp_reversed {start last : Addr} (h : last.toNat < start.toNat) (s : State) :
    exec (.dmp start last) s = .next { s with rsp := some (Response.zero.report .badDump) } := by
  simp only [exec, execDmp, if_pos h, complete]

/-- `DMP` with `start <= end`. -/
theorem exec_dmp_ordered {start last : Addr} (h : ¬ last.toNat < start.toNat) (s : State) :
    exec (.dmp start last) s = .next { s with
      rsp := some { Response.okay with dump := dumpItems s.block start (dumpCount start last) } } := by
  simp only [exec, execDmp, if_neg h, complete]

/-- `LOAD` with nothing on `cart`. -/
theorem exec_load_absent {s : State} (h : s.cart = .absent) :
    exec .load s = .next { s with rsp := some loadFailed } := by
  simp only [exec, execLoad, h, complete]

/-- `LOAD` of an empty image. -/
theorem exec_load_empty {s : State} (h : s.cart = .image []) :
    exec .load s = .next { s with rsp := some loadFailed } := by
  simp only [exec, execLoad, h, complete]; rfl

theorem imageTaken_length_ne {l : List Byte} (h : l ≠ []) : (imageTaken l).length ≠ 0 := by
  simp [imageTaken, Config.romSize, h]

/-- `LOAD` of any other image. -/
theorem exec_load_image {s : State} {l : List Byte} (h : s.cart = .image l) (hl : l ≠ []) :
    exec .load s = .next { s with block := s.block.loaded l, rsp := some Response.okay } := by
  simp only [exec, execLoad, h, if_neg (imageTaken_length_ne hl), complete]

/-- How an operation can leave the block. -/
theorem exec_completes (i : Instr) (s : State) : ∃ b r, exec i s = .next { s with block := b, rsp := some r } ∧
    (b = s.block ∨ (∃ a v, i = .wrb a v ∧ b = (s.block.busWrite8 a v).1) ∨
      (∃ a v, i = .wrw a v ∧
        b = ((s.block.busWrite8 a (lowByte v)).1.busWrite8 (inc16 a) (highByte v)).1) ∨
      ((i = .init ∨ i = .clr) ∧ b = s.block.zeroed) ∨
      (∃ l, i = .load ∧ s.cart = .image l ∧ l ≠ [] ∧ b = s.block.loaded l)) := by
  cases i with
  | wrb a v => exact ⟨_, _, rfl, .inr (.inl ⟨a, v, rfl, rfl⟩)⟩
  | wrw a v => exact ⟨_, _, rfl, .inr (.inr (.inl ⟨a, v, rfl, rfl⟩))⟩
  | init => exact ⟨_, _, rfl, .inr (.inr (.inr (.inl ⟨.inl rfl, rfl⟩)))⟩
  | clr => exact ⟨_, _, rfl, .inr (.inr (.inr (.inl ⟨.inr rfl, rfl⟩)))⟩
  | dmp a b =>
    by_cases h : b.toNat < a.toNat
    · exact ⟨_, _, exec_dmp_reversed h s, .inl rfl⟩
    · exact ⟨_, _, exec_dmp_ordered h s, .inl rfl⟩
  | load =>
    obtain ⟨c, hc⟩ : ∃ c, s.cart = c := ⟨_, rfl⟩
    cases c with
    | absent => exact ⟨_, _, exec_load_absent hc, .inl rfl⟩
    | image l =>
      by_cases hl : l = []
      · exact ⟨_, _, exec_load_empty (hl ▸ hc), .inl rfl⟩
      · exact ⟨_, _, exec_load_image hc hl, .inr (.inr (.inr (.inr ⟨l, rfl, hc, hl, rfl⟩)))⟩
  | _ => exact ⟨_, _, rfl, .inl rfl⟩

end Sys2Proof.Machine
end

