-- ==== Sys2Proof/Laws/PerInstr.lean ====
section
/-! SUPPORT. The families of statements made per instruction. `TableRow`: the encoded word is selected by the match and
mask of its row of the opcode table (spec R74: `req & 0xF00000000 == c << 32`). -/

namespace Sys2Proof.Laws.TableRow

/-- The op code of R74 and R80. -/
def code : Instr → Nat
  | .rdb _ => 0x0
  | .wrb _ _ => 0x1
  | .rdw _ => 0x2
  | .wrw _ _ => 0x3
  | .xlt _ => 0x4
  | .vld _ => 0x5
  | .rgn _ => 0x6
  | .dmp _ _ => 0x7
  | .init => 0x8
  | .clr => 0x9
  | .load => 0xA
  | .reservedB => 0xB
  | .reservedC => 0xC
  | .reservedD => 0xD
  | .reservedE => 0xE
  | .reservedF => 0xF

/-- The row with code `c` selects the word: `req & 0xF00000000 == c << 32`. -/
def Statement (i : Instr) : Prop := encode i &&& 0xF00000000#36 = BitVec.ofNat 36 (code i) <<< 32

/-- A code in the high four bits is the code shifted up by 32. -/
theorem code_placed : ∀ c : Fin 16,
    (BitVec.ofNat 4 c.val ++ 0#16 ++ 0#16 : BitVec (4 + 16 + 16)) = BitVec.ofNat 36 c.val <<< 32 := by decide

/-- A request record whose code is the row's gives a word the row selects. -/
theorem of_request (i : Instr) (h : i.request.op = BitVec.ofNat 4 (code i)) : Statement i := by
  unfold Statement encode Request.toWord
  rw [h]
  generalize i.request.addr = a
  generalize i.request.wdata = d
  have hm : (0xF00000000#36 : ReqWord) = (0xF#4 ++ 0#16 ++ 0#16 : BitVec (4 + 16 + 16)) := by decide
  have key : (BitVec.ofNat 4 (code i) ++ a ++ d : BitVec (4 + 16 + 16)) &&& (0xF#4 ++ 0#16 ++ 0#16) =
      BitVec.ofNat 4 (code i) ++ 0#16 ++ 0#16 := by
    rw [BitVec.and_append, BitVec.and_append]
    rw [show (0xF#4 : BitVec 4) = BitVec.allOnes 4 by decide]
    rw [BitVec.and_allOnes, BitVec.and_zero, BitVec.and_zero]
  rw [hm]
  exact key.trans (code_placed ⟨code i, by cases i <;> simp [code]⟩)

theorem rdb (a : Addr) : Statement (.rdb a) := of_request _ rfl
theorem wrb (a : Addr) (v : Byte) : Statement (.wrb a v) := of_request _ rfl
theorem rdw (a : Addr) : Statement (.rdw a) := of_request _ rfl
theorem wrw (a : Addr) (v : Word) : Statement (.wrw a v) := of_request _ rfl
theorem xlt (a : Addr) : Statement (.xlt a) := of_request _ rfl
theorem vld (a : Addr) : Statement (.vld a) := of_request _ rfl
theorem rgn (a : Addr) : Statement (.rgn a) := of_request _ rfl
theorem dmp (a b : Addr) : Statement (.dmp a b) := of_request _ rfl
theorem init : Statement .init := of_request _ rfl
theorem clr : Statement .clr := of_request _ rfl
theorem load : Statement .load := of_request _ rfl
theorem reservedB : Statement .reservedB := of_request _ rfl
theorem reservedC : Statement .reservedC := of_request _ rfl
theorem reservedD : Statement .reservedD := of_request _ rfl
theorem reservedE : Statement .reservedE := of_request _ rfl
theorem reservedF : Statement .reservedF := of_request _ rfl

end Sys2Proof.Laws.TableRow
end

