-- ==== Sys2Proof/Laws/Step.lean ====
section
/-! SUPPORT. What a step and a run of steps can do, said once. -/

namespace Sys2Proof.Machine

@[simp] theorem accept_nil {s : State} (h : s.inputs = []) : accept s = none := by simp [accept, h]

@[simp] theorem accept_rst {s : State} {rest : List Input} (h : s.inputs = .rst :: rest) :
    accept s = some (.rst, { s with inputs := rest }) := by simp [accept, h]

@[simp] theorem accept_op {s : State} {w : ReqWord} {c : Cart} {rest : List Input}
    (h : s.inputs = .op w c :: rest) : accept s = some (.op w c, { s with inputs := rest, cart := c }) := by
  simp [accept, h]

/-- An operation leaves what is still to be presented, and the value on `cart`, as they are. -/
theorem exec_ports {i : Instr} {s t : State} (h : exec i s = .next t) :
    t.inputs = s.inputs ∧ t.cart = s.cart ∧ ∃ r, t.rsp = some r := by
  obtain ⟨b, r, he, -⟩ := exec_completes i s
  rw [h] at he
  cases he
  exact ⟨rfl, rfl, r, rfl⟩

/-- A run of one step more is a run from the state the step answers. -/
theorem run_succ_of_step {k : Nat} {s t : State} (h : step s = .next t) :
    Host.Core.run core (k + 1) s = Host.Core.run core k t := by
  have key : ∀ (M : Host.Core) (x y : M.State), M.step x = .next y → M.run (k + 1) x = M.run k y := by
    intro M x y hxy
    simp only [Host.Core.run, hxy]
  exact key core s t h

end Sys2Proof.Machine
end

