-- ==== Sys2Proof/Tests/Slice0.lean ====
section
/-! SUPPORT. The model's own tests: the well-formedness smoke, decoding of words the spec writes out, single steps with results
taken from `spec/95_test_vectors.md`, and a witness for the hypotheses of every statement. -/

namespace Sys2Proof.Tests

open Sys2Proof.Machine Sys2Proof.Claims

/-- The next state of an outcome, if it is one. -/
def nextOf : Host.Outcome State Fault Refusal → Option State
  | .next s => some s
  | .fault _ => none
  | .refused _ => none

/-- The response of a next state. -/
def rspOf (o : Host.Outcome State Fault Refusal) : Option Response := (nextOf o).bind (·.rsp)

/-- The block of a next state. -/
def blockOf (o : Host.Outcome State Fault Refusal) : Option Block := (nextOf o).map (·.block)

/-- A state with a few cells. -/
def st (rom vram wram : Memory) (loaded : Bool := false) (cart : Cart := .absent) : State :=
  { State.reset with block := { rom := rom, vram := vram, wram := wram, romLoaded := loaded }, cart := cart }

/-! Well-formedness: an ill-formed term for each check. -/

theorem test_reserved_not_well_formed :
    [Instr.reservedB, .reservedC, .reservedD, .reservedE, .reservedF].map Instr.wellFormed =
      [false, false, false, false, false] := by decide
theorem test_operation_well_formed : (Instr.wrb 0xFFFF#16 0xFF#8).wellFormed = true := by decide
theorem test_wide_word_refused : wellFormedWord 0x1000000000 = false := by decide
theorem test_wide_word_rejected_by_name :
    (match decodeNat 0x1000000000 with | .error e => some e | .ok _ => none) = some .widerThanRequest := by decide

/-! Decoding: words written out from R72 and R74, and from 95_test_vectors.md. -/

theorem test_decode_rdb : decode 0b000010000000000000000000000000000000#36 = .rdb 0x8000#16 := by decide
theorem test_decode_rdb_unused : decode 0x08000BEEF#36 = .rdb 0x8000#16 := by decide
theorem test_decode_wrb : decode 0b000110000000000000000000000001000010#36 = .wrb 0x8000#16 0x42#8 := by decide
theorem test_decode_wrb_unused : decode 0x18000AB42#36 = .wrb 0x8000#16 0x42#8 := by decide
theorem test_decode_rdw : decode 0b001001111111111111110000000000000000#36 = .rdw 0x7FFF#16 := by decide
theorem test_decode_wrw : decode 0b001111000000000000000001001000110100#36 = .wrw 0xC000#16 0x1234#16 := by decide
theorem test_decode_xlt : decode 0b010010000001001000110000000000000000#36 = .xlt 0x8123#16 := by decide
theorem test_decode_vld : decode 0b010110011111111111110000000000000000#36 = .vld 0x9FFF#16 := by decide
theorem test_decode_rgn : decode 0b011011000000000000000000000000000000#36 = .rgn 0xC000#16 := by decide
theorem test_decode_dmp :
    decode 0b011110011111111111101010000000000001#36 = .dmp 0x9FFE#16 0xA001#16 := by decide
theorem test_decode_init : decode 0b100000000000000000000001001000110100#36 = .init := by decide
theorem test_decode_clr : decode 0b100100000000000000000000000000000000#36 = .clr := by decide
theorem test_decode_load : decode 0b101000000000000000000000000000000000#36 = .load := by decide
theorem test_decode_reservedB : decode 0xB00000000#36 = .reservedB := by decide
theorem test_decode_reservedC : decode 0xC00000000#36 = .reservedC := by decide
theorem test_decode_reservedD : decode 0xD00000000#36 = .reservedD := by decide
theorem test_decode_reservedE : decode 0xE00000000#36 = .reservedE := by decide
theorem test_decode_reservedF : decode 0xFFFFFFFFF#36 = .reservedF := by decide
theorem test_encode_dmp : encode (.dmp 0xA001#16 0x9FFE#16) = 0x7A0019FFE#36 := by decide
theorem test_encode_wrb : encode (.wrb 0x9FFF#16 0x7F#8) = 0x19FFF007F#36 := by decide
theorem test_table_word : decodeTableWord 40 0x3C001BEEF = some (.wrw 0xC001#16 0xBEEF#16) := by decide

/-! The translator at the ends of every range (95_test_vectors.md section 2.1), and the codes of R78 and R79. -/

theorem test_translate_ends :
    [0x0000, 0x7FFF, 0x8000, 0x8123, 0x9FFF, 0xA000, 0xBFFF, 0xC000, 0xDFFF, 0xE000, 0xFF80, 0xFFFF, 0x10000].map decodeAddr =
      [.cell .rom 0, .cell .rom 0x7FFF, .cell .vram 0, .cell .vram 0x0123, .cell .vram 0x1FFF, .unmapped, .unmapped,
       .cell .wram 0, .cell .wram 0x1FFF, .unmapped, .unmapped, .unmapped, .invalid] := by decide
theorem test_region_codes :
    [Region.rom, .vram, .wram, .unmapped, .invalid].map Region.code = [0#3, 1#3, 2#3, 3#3, 4#3] := by decide
theorem test_err_codes :
    [ErrClass.noError, .roViolation, .ioFailure, .badDump, .illegalOp].map ErrClass.code = [0#3, 1#3, 2#3, 3#3, 4#3] := by
  decide
theorem test_printable :
    [0x1F#8, 0x20#8, 0x41#8, 0x7E#8, 0x7F#8, 0x80#8, 0xFF#8, 0x00#8].map printable =
      [false, true, true, true, false, false, false, false] := by decide

theorem test_xlt : (rspOf (exec (.xlt 0x8123#16) (st [] [] []))).map (fun r => (r.hit, r.region, r.offset)) =
    some (true, .vram, 0x0123#15) := by decide
theorem test_vld : (rspOf (exec (.vld 0xA000#16) (st [] [] []))).map (fun r => (r.hit, r.ok, r.err)) =
    some (false, true, .noError) := by decide
theorem test_rgn : (rspOf (exec (.rgn 0xE000#16) (st [] [] []))).map (·.region.name) = some "Unmapped" := by decide

/-! Byte and word access (95_test_vectors.md sections 1.1, 2.2, 2.3). -/

theorem test_rdb : (rspOf (exec (.rdb 0x8000#16) (st [] [(0, 0x42)] []))).map (fun r => (r.rdata, r.hit)) =
    some (0x0042#16, true) := by decide
theorem test_rdb_open_bus : (rspOf (exec (.rdb 0xA000#16) (st [] [] []))).map (fun r => (r.rdata, r.hit, r.region, r.ok)) =
    some (0x00FF#16, false, .unmapped, true) := by decide
theorem test_wrb_stores_top_of_vram : blockOf (exec (.wrb 0x9FFF#16 0x33#8) (st [] [(0, 0x22)] [])) =
    some ⟨[], [(0, 0x22), (0x1FFF, 0x33)], [], false⟩ := by decide +kernel
theorem test_wrb_rom_rejected :
    (rspOf (exec (.wrb 0x7FFF#16 0x11#8) (st [] [] []))).map (fun r => (r.viol, r.ok, r.err, r.offset)) =
      some (0b01#2, false, .roViolation, 0x7FFF#15) ∧
    blockOf (exec (.wrb 0x7FFF#16 0x11#8) (st [] [] [])) = some Block.reset := by decide
theorem test_rdw_across_rom_and_vram :
    (rspOf (exec (.rdw 0x7FFF#16) (st [(0x7FFF, 0xC3)] [(0, 0xA1)] []))).map (·.rdata) = some 0xA1C3#16 := by decide +kernel
theorem test_rdw_wraps : (rspOf (exec (.rdw 0xFFFF#16) (st [(0, 0x5A)] [] []))).map (fun r => (r.rdata, r.hit)) =
    some (0x5AFF#16, false) := by decide
theorem test_wrw_odd : blockOf (exec (.wrw 0xC001#16 0xBEEF#16) (st [] [] [])) =
    some ⟨[], [], [(1, 0xEF), (2, 0xBE)], false⟩ := by decide +kernel
theorem test_wrw_one_lane_rejected :
    (nextOf (exec (.wrw 0x7FFF#16 0xA1B2#16) (st [(0x7FFF, 0xC3)] [] []))).map (fun t =>
      (t.block, t.rsp.map fun r => (r.viol, r.ok, r.err))) =
    some (⟨[(0x7FFF, 0xC3)], [(0, 0xA1)], [], false⟩, some (0b01#2, false, .roViolation)) := by decide +kernel
theorem test_write_of_reset_value_unlists : blockOf (exec (.wrb 0xC001#16 0x00#8) (st [] [] [(0, 7), (1, 8), (2, 9)])) =
    some ⟨[], [], [(0, 7), (2, 9)], false⟩ := by decide +kernel

/-! The dump (95_test_vectors.md section 2.4). -/

theorem test_dmp_across_boundary :
    (rspOf (exec (.dmp 0x9FFE#16 0xA001#16) (st [] [(0x1FFE, 0x48), (0x1FFF, 0x7F)] []))).map (fun r => (r.ok, r.dump)) =
    some (true, [⟨0x9FFE#16, 0x48#8, true⟩, ⟨0x9FFF#16, 0x7F#8, false⟩, ⟨0xA000#16, 0xFF#8, false⟩,
      ⟨0xA001#16, 0xFF#8, false⟩]) := by decide
theorem test_dmp_reversed : (rspOf (exec (.dmp 0xA001#16 0x9FFE#16) (st [] [] []))).map (fun r => (r.ok, r.err, r.dump)) =
    some (false, .badDump, []) := by decide

/-- Vector D of section 2.4: 18 bytes in WRAM, listed in two rows. -/
theorem test_listing_rows :
    let cells : Memory := [(0, 0x47), (1, 0x41), (2, 0x4D), (3, 0x45), (4, 0x42), (5, 0x4F), (6, 0x59), (7, 0x20), (8, 0x52),
      (9, 0x4F), (10, 0x4D), (11, 0x20), (12, 0x76), (13, 0x31), (14, 0x2E), (15, 0x30), (16, 0x21)]
    (listing 0xC000#16 (dumpItems (st [] [] cells).block 0xC000#16 18)).map (fun l => (l.base, l.blanks, l.ascii)) =
      [(0xC000#16, 0, ['G', 'A', 'M', 'E', 'B', 'O', 'Y', ' ', 'R', 'O', 'M', ' ', 'v', '1', '.', '0']),
       (0xC010#16, 14, ['!', '.'])] := by decide

/-! Load and lifecycle (95_test_vectors.md section 2.5). -/

theorem test_load_image :
    (nextOf (exec .load (st [] [] [] false (.image [0x31, 0xFE, 0xFF, 0xAF])))).map (fun t => (t.block, t.rsp.map (·.ok))) =
    some (⟨[(0, 0x31), (1, 0xFE), (2, 0xFF), (3, 0xAF)], [], [], true⟩, some true) := by decide
theorem test_load_keeps_the_tail :
    blockOf (exec .load (st [(0, 0x31), (1, 0xFE), (2, 0xFF)] [] [] true (.image [0xC9]))) =
    some ⟨[(0, 0xC9), (1, 0xFE), (2, 0xFF)], [], [], true⟩ := by decide
theorem test_load_absent_keeps_flag :
    (nextOf (exec .load (st [(0, 0x31)] [] [] true .absent))).map (fun t => (t.block, t.rsp.map fun r => (r.ok, r.err))) =
    some (⟨[(0, 0x31)], [], [], true⟩, some (false, .ioFailure)) := by decide
theorem test_load_empty_fails : (rspOf (exec .load (st [] [] [] false (.image [])))).map (fun r => (r.ok, r.err)) =
    some (false, .ioFailure) := by decide
theorem test_init : blockOf (exec .init (st [(0, 1)] [(0, 2)] [(0, 3)] true)) = some Block.reset := by decide
theorem test_clr : (nextOf (exec .clr (st [(0, 1)] [(0, 2)] [(0, 3)] true))).map (fun t => (t.block, t.rsp.map (·.ok))) =
    some (Block.reset, some true) := by decide
theorem test_reserved :
    [Instr.reservedB, .reservedC, .reservedD, .reservedE, .reservedF].map (fun i => nextOf (exec i (st [(0, 1)] [] []))) =
      List.replicate 5 (some { st [(0, 1)] [] [] with rsp := some (failed .illegalOp) }) := by decide

/-! The step. -/

theorem test_step_runs_presented_word :
    (nextOf (step (State.withFetchWord State.reset 40 0x180000042))).map (fun t => (t.block.vram, t.inputs)) =
    some ([(0, 0x42)], []) := by decide
theorem test_step_reset_pin :
    (nextOf (step { st [(0, 1)] [] [] true with inputs := [.rst] })).map (fun t => (t.block, t.rsp)) =
    some (Block.reset, none) := by decide
theorem test_step_idle : nextOf (step State.reset) = some State.reset := by decide

/-! Witnesses: for every statement with hypotheses, values that meet them, at the ends of the ranges where it has several
clauses. -/

theorem witness_ranges_at_their_ends :
    (inRom 0x0000 ∧ inRom 0x7FFF) ∧ (inVram 0x8000 ∧ inVram 0x9FFF) ∧ (inNone 0xA000 ∧ inNone 0xBFFF) ∧
    (inWram 0xC000 ∧ inWram 0xDFFF) ∧ (inNone 0xE000 ∧ inNone 0xFFFF) ∧ 0xFFFF < 0x10000 := by
  unfold inRom inVram inWram inNone; decide

/-- The clauses over ranges exclude each other, so no address falls under two of them. -/
theorem witness_ranges_exclude_each_other (A : Nat) :
    ¬ (inRom A ∧ (inVram A ∨ inWram A ∨ inNone A ∨ 0xFFFF < A)) ∧ ¬ (inVram A ∧ (inWram A ∨ inNone A ∨ 0xFFFF < A)) ∧
    ¬ (inWram A ∧ (inNone A ∨ 0xFFFF < A)) ∧ ¬ (inNone A ∧ 0xFFFF < A) := by
  unfold inRom inVram inWram inNone; omega

theorem witness_EveryCellHasExactlyOneAddress :
    decodeAddr 0x9FFF = .cell .vram 0x1FFF ∧ 0x1FFF < Bank.vram.size ∧ 0x7FFF < Bank.rom.size := by decide

theorem witness_SelectLinesNameTheClass :
    (decodeAddr 0xC000).sel .wram = true ∧ (decodeAddr 0x7FFF).sel .rom = true ∧ (decodeAddr 0x8000).sel .vram = true := by
  decide

theorem witness_ValidityAgreesWithRegion : ((0x7FFF#16, 0#3) : Addr × BitVec 3) ∈
    [(0x0000#16, 0#3), (0x7FFF#16, 0#3), (0x8000#16, 1#3), (0x9FFF#16, 1#3), (0xC000#16, 2#3), (0xDFFF#16, 2#3)] := by decide

theorem witness_WrbFrame : (0x8001#16 : Addr) ≠ 0x8000#16 ∧
    (¬ inVram (0xA000#16 : Addr).toNat ∧ ¬ inWram (0xA000#16 : Addr).toNat) := by
  unfold inVram inWram; decide

theorem witness_WrwFrame : (0x8002#16 : Addr) ≠ 0x8000#16 ∧ (0x8002#16 : Addr) ≠ inc16 0x8000#16 ∧
    ¬ inVram (0x7FFF#16 : Addr).toNat ∧ ¬ inWram (0x7FFF#16 : Addr).toNat := by
  unfold inVram inWram; decide

theorem witness_ReadsHaveNoSideEffectAndRepeat :
    onlyReads (.rdb 0#16) ∧ onlyReads (.rdw 0#16) ∧ onlyReads (.xlt 0#16) ∧ onlyReads (.vld 0#16) ∧ onlyReads (.rgn 0#16) ∧
    onlyReads (.dmp 0#16 0#16) := ⟨trivial, trivial, trivial, trivial, trivial, trivial⟩

theorem witness_LaneOrderCannotBeSeen : (st [(0x7FFF, 1)] [(0x1FFF, 2)] [(0, 3), (1, 4)] true).Inv := by decide

theorem witness_UnmappedAccessIsNoError :
    inNone (0xA000#16 : Addr).toNat ∧ inNone (0xBFFF#16 : Addr).toNat ∧ inNone (0xE000#16 : Addr).toNat ∧
    inNone (0xFFFF#16 : Addr).toNat := by unfold inNone; decide

theorem witness_BusNeverWritesRom : inRom (0x0000#16 : Addr).toNat ∧ inRom (0x7FFF#16 : Addr).toNat ∧
    inRom (inc16 0xFFFF#16).toNat ∧ ¬ writesRom (.wrb 0#16 0#8) ∧ ¬ writesRom (.wrw 0#16 0#16) ∧ ¬ writesRom .reservedB := by
  refine ⟨?_, ?_, ?_, id, id, id⟩ <;> unfold inRom <;> decide

theorem witness_ReadWriteLaws :
    (inRom (0x7FFF#16 : Addr).toNat ∨ inVram (0x7FFF#16 : Addr).toNat ∨ inWram (0x7FFF#16 : Addr).toNat) ∧
    ¬ (inRom (0xA000#16 : Addr).toNat ∨ inVram (0xA000#16 : Addr).toNat ∨ inWram (0xA000#16 : Addr).toNat) ∧
    (inVram (0x9FFE#16 : Addr).toNat ∨ inWram (0x9FFE#16 : Addr).toNat) ∧
    (inVram ((0x9FFE#16 : Addr).toNat + 1) ∨ inWram ((0x9FFE#16 : Addr).toNat + 1)) ∧
    (0x8001#16 : Addr) ≠ 0x8000#16 := by
  unfold inRom inVram inWram; decide

theorem witness_DumpStreamsTheRange :
    ((0x9FFE#16 : Addr).toNat < (0xA001#16 : Addr).toNat) ∧ ((0x1234#16 : Addr).toNat ≤ (0x1234#16 : Addr).toNat) ∧
    (dumpItems Block.reset 0x1234#16 (dumpCount 0x1234#16 0x1234#16))[0]? = some ⟨0x1234#16, 0#8, false⟩ := by decide

theorem witness_DumpEqualsSuccessiveReads : (0x9FFE#16 : Addr).toNat ≤ (0xA001#16 : Addr).toNat ∧
    3 ≤ (0xA001#16 : Addr).toNat - (0x9FFE#16 : Addr).toNat := by decide

theorem witness_DumpRowsCutTheStream :
    (dumpRows (dumpItems Block.reset 0xFFFF#16 1))[0]? = some [⟨0xFFFF#16, 0xFF#8, false⟩] := by decide

theorem witness_ListingShowsEachRow : (0xFFFF#16 : Addr).toNat ≤ (0xFFFF#16 : Addr).toNat ∧
    (listing 0xFFFF#16 (dumpItems Block.reset 0xFFFF#16 1))[0]? = some ⟨0xFFFF#16, [0xFF#8], 15, ['.']⟩ := by decide

/-- Both clauses over the place of a row: with 17 items row 0 is full and not the last, row 1 is last and short. -/
theorem witness_ListingShowsEachRow_two_rows :
    (listing 0xA000#16 (dumpItems Block.reset 0xA000#16 17)).map (·.blanks) = [0, 15] ∧
    (dumpRows (dumpItems Block.reset 0xA000#16 17)).length = 2 ∧ (dumpItems Block.reset 0xA000#16 17).length % 16 ≠ 0 := by
  decide

theorem witness_InitAndClearAreIdempotent :
    (Instr.init = .init ∨ Instr.init = .clr) ∧ (Instr.clr = .init ∨ Instr.clr = .clr) := by decide

theorem witness_LoadStoresTheImage :
    ((st [] [] []).cart = .absent ∨ (st [] [] []).cart = .image []) ∧
    ((st [] [] [] false (.image [])).cart = .absent ∨ (st [] [] [] false (.image [])).cart = .image []) ∧
    (st [] [] [] false (.image [0x31])).cart = .image [0x31] ∧ [(0x31 : Byte)] ≠ [] ∧ 0 < min [(0x31 : Byte)].length 32768 ∧
    min [(0x31 : Byte)].length 32768 ≤ 1 := by decide

theorem witness_LoadEqualsTheLoop : (st [(0x7FFF, 1)] [] [] true (.image [0, 5])).Inv ∧
    (st [(0x7FFF, 1)] [] [] true (.image [0, 5])).cart = .image [0, 5] ∧ [(0 : Byte), 5] ≠ [] := by decide

theorem witness_FullLoadIsReadBack :
    ∃ s : State, ∃ bytes, s.cart = .image bytes ∧ bytes.length = 32768 ∧ (0x7FFF#16 : Addr).toNat ≤ 0x7FFF :=
  ⟨st [] [] [] false (.image (List.replicate 32768 0x5A#8)), _, rfl, List.length_replicate, by decide⟩

theorem witness_FullLoadIsReadBack_absent : (st [(0, 1)] [] [] true).cart = .absent := by decide

theorem witness_RomLoadedGatesNothing : State.reset.block = Block.reset ∧ inRom (0x7FFF#16 : Addr).toNat := by
  unfold inRom; decide

theorem witness_ReservedCodesReportIllegalOp :
    isReserved .reservedB ∧ isReserved .reservedC ∧ isReserved .reservedD ∧ isReserved .reservedE ∧ isReserved .reservedF :=
  ⟨trivial, trivial, trivial, trivial, trivial⟩

theorem witness_ReportsAreExactAndOwned :
    (rspOf (exec (.wrw 0xFFFF#16 0#16) (st [] [] []))).map (fun r => (r.err, r.viol)) = some (.roViolation, 0b10#2) ∧
    (rspOf (exec .load (st [] [] []))).map (·.err) = some .ioFailure ∧
    (rspOf (exec (.dmp 1#16 0#16) (st [] [] []))).map (·.err) = some .badDump := by decide

theorem witness_PathsKeepTheirRights :
    (pathOf .load).mayWrite .vram = false ∧ (pathOf (.wrb 0#16 0#8)).mayWrite .rom = false ∧ pathOf .init = .lifecycle ∧
    (∀ k, (pathOf .load).mayRead k = false) ∧ (∀ k, (pathOf (.xlt 0#16)).mayRead k = false) ∧
    (st [(0, 1)] [] [] false (.image [5])).cart = (st [] [] [] true (.image [5])).cart ∧ 0 < min [(5 : Byte)].length 32768 :=
  ⟨rfl, rfl, rfl, fun _ => rfl, fun _ => rfl, rfl, by decide⟩

/-- Two states for the bus path: they agree in the storage and differ in `romLoaded`. -/
theorem witness_PathsKeepTheirRights_bus : (pathOf (.wrb 0#16 0#8)).mayRead .rom = true ∧
    ∀ k, (st [(0, 1)] [] [] true).block.bank k = (st [(0, 1)] [] [] false).block.bank k := ⟨rfl, fun _ => rfl⟩

/-- Everything that takes the lifecycle path: the pin, `INIT` and `CLR`. -/
theorem witness_PathsKeepTheirRights_lifecycle : pathOfInput .rst = .lifecycle ∧
    pathOfInput (.op 0x800000000#36 .absent) = .lifecycle ∧ pathOfInput (.op 0x900000000#36 .absent) = .lifecycle ∧
    ({ st [(0, 1)] [] [] with inputs := [.rst] } : State).inputs = .rst :: [] := by decide

theorem witness_NothingElseIsAnInput :
    ({ st [] [] [] with inputs := [.rst], rsp := some okay } : State).block = (st [] [] []).block ∧
    ({ st [] [] [] with inputs := [.rst], rsp := some okay } : State).cart = (st [] [] []).cart := by decide

theorem witness_UnusedFieldsAreIgnored : 0x0#4 ∈ [0x0#4, 0x2#4, 0x4#4, 0x5#4, 0x6#4] ∧ 0x8#4 ≤ 0xF#4 ∧ 0x8#4 ≤ 0x8#4 := by
  decide

theorem witness_StepRunsTheDecodedOperation :
    ({ st [] [] [] with inputs := [.op 0x180000042#36 .absent, .rst] } : State).inputs =
      .op 0x180000042#36 .absent :: [.rst] := by decide

theorem witness_ResetPinAndIdleStep :
    ({ st [] [] [] with inputs := [.rst] } : State).inputs = .rst :: [] ∧ (st [(0, 1)] [] []).inputs = [] := by decide

theorem witness_MalformedDumpAndReservedCodeAreReported :
    dutyKept (.op 0x7A0019FFE#36 .absent) = false ∧ dutyKept (.op 0xB00000000#36 .absent) = false ∧
    dutyKept (.op 0x79FFEA001#36 .absent) = true := by decide

theorem witness_StepKeepsInvariant :
    ∃ t, (State.withFetchWord (st [] [(0, 1)] []) 40 0x3DFFF5566).Inv ∧
      step (State.withFetchWord (st [] [(0, 1)] []) 40 0x3DFFF5566) = .next t :=
  ⟨_, by decide, rfl⟩

theorem witness_ReadReturnsTheLatestWrite : hitAt 0x7FFF#16 = true ∧ hitAt 0x9FFF#16 = true ∧ hitAt 0xDFFF#16 = true ∧
    hitAt 0xA000#16 = false ∧ hitAt 0xFFFF#16 = false ∧
    [Input.op 0x180000042#36 .absent, .op 0x180000043#36 .absent].foldl (byteAfter 0x8000#16) 0#8 = 0x43#8 := by decide

end Sys2Proof.Tests
end

section
/-! SUPPORT. What an operation's completion depends on (spec R14). -/

namespace Sys2Proof.Machine

/-- R14: every operation ends in `complete`. Only `DMP` (on its operands) and `LOAD` (on `cart`) choose between two
calls of it, and neither choice looks at what else the states hold. -/
theorem exec_completes_alike (i : Instr) {s s' : State} (hblock : s'.block = s.block) (hcart : s'.cart = s.cart) :
    ∃ b r, exec i s = complete s b r ∧ exec i s' = complete s' b r := by
  obtain ⟨_, _, c, _⟩ := s
  obtain ⟨_, _, _, _⟩ := s'
  cases hblock
  cases hcart
  cases i with
  | dmp a b =>
    by_cases h : b.toNat < a.toNat
    · exact ⟨_, _, exec_dmp_reversed h _, exec_dmp_reversed h _⟩
    · exact ⟨_, _, exec_dmp_ordered h _, exec_dmp_ordered h _⟩
  | load =>
    cases c with
    | absent => exact ⟨_, _, exec_load_absent rfl, exec_load_absent rfl⟩
    | image l =>
      by_cases hl : l = []
      · subst hl
        exact ⟨_, _, exec_load_empty rfl, exec_load_empty rfl⟩
      · exact ⟨_, _, exec_load_image rfl hl, exec_load_image rfl hl⟩
  | _ => exact ⟨_, _, rfl, rfl⟩

end Sys2Proof.Machine

namespace Sys2Proof

open Sys2Proof.Machine

/-- Settles O37: `complete` puts the same block and response into both states. -/
theorem nothingElseIsAnInput : Obligations.NothingElseIsAnInput := by
  intro i s s' hblock hcart
  obtain ⟨b, r, he, he'⟩ := exec_completes_alike i hblock hcart
  exact ⟨{ s with block := b, rsp := some r }, { s' with block := b, rsp := some r }, he, he', rfl, rfl⟩

end Sys2Proof
end

section
/-! SUPPORT. The reads of a block against the ranges of `Sys2Proof.Claims`: reset, a bus write, a load (spec R121, R122, R170). -/

namespace Sys2Proof.Machine

open Sys2Proof.Claims

/-- The ranges of R150 are the addresses that hit a storage array. -/
theorem hitAt_eq_hit (a : Addr) : hitAt a = (decodeAddr a.toNat).hit := by
  unfold hitAt
  rcases decodeAddr_cases a.toNat with ⟨h, e⟩ | ⟨h, h', e⟩ | ⟨h, h', e⟩ | ⟨h, e⟩ | ⟨h, e⟩ <;> rw [e] <;>
    simp [Target.hit, Target.sel] <;> omega

/-- ROM is selected exactly below `0x8000` (R40, R104). -/
theorem decodeAddr_sel_rom (A : Nat) : (decodeAddr A).sel .rom = false ↔ 0x8000 ≤ A := by
  rcases decodeAddr_cases A with ⟨h, e⟩ | ⟨h, h', e⟩ | ⟨h, h', e⟩ | ⟨h, e⟩ | ⟨h, e⟩ <;> rw [e] <;>
    simp [Target.sel] <;> omega

/-- An address without storage reads the open bus, whatever the block holds. -/
theorem Block.readAt_of_no_hit (b : Block) {A : Nat} (h : (decodeAddr A).hit = false) :
    b.readAt A = Config.openBus := by
  unfold Block.readAt
  cases hd : decodeAddr A with
  | cell k o =>
    rw [hd] at h
    cases k <;> cases h
  | unmapped => rfl
  | invalid => rfl

theorem Block.busRead8_of_hitAt_false (b : Block) {a : Addr} (h : hitAt a = false) : b.busRead8 a = 0xFF#8 :=
  b.readAt_of_no_hit (hitAt_eq_hit a ▸ h)

/-- In a zeroed block every address with storage reads the reset value (R32). -/
theorem Block.busRead8_zeroed (b : Block) {a : Addr} (h : hitAt a = true) : b.zeroed.busRead8 a = 0#8 := by
  rw [hitAt_eq_hit] at h
  unfold Block.busRead8 Block.readAt
  cases hd : decodeAddr a.toNat with
  | cell k o =>
    show (b.zeroed.bank k).read o = 0#8
    rw [Block.zeroed_bank]
    rfl
  | unmapped => rw [hd] at h; cases h
  | invalid => rw [hd] at h; cases h

/-- The reset state is what the lifecycle path leaves of any block (R32, R175). -/
theorem Block.zeroed_eq_reset (b : Block) : b.zeroed = Block.reset := rfl

/-- What a read of an address with storage gives after a bus write (R122, R128). -/
theorem Block.busRead8_busWrite8 (b : Block) (x : Addr) (v : Byte) {a : Addr} (h : hitAt a = true) :
    (b.busWrite8 x v).1.busRead8 a = if x = a ∧ 0x8000 ≤ a.toNat then v else b.busRead8 a := by
  rw [hitAt_eq_hit] at h
  unfold Block.busWrite8 Block.busRead8
  rw [Block.readAt_writeAt]
  by_cases hx : x = a
  · subst hx
    simp only [decodeAddr_sel_rom, h, and_true, true_and]
  · have hn : a.toNat ≠ x.toNat := fun e => hx (BitVec.eq_of_toNat_eq e.symm)
    simp only [hx, hn, false_and]

/-- The cut of a long image leaves every byte that a ROM offset names (R172). -/
theorem imageTaken_getElem? (l : List Byte) {A : Nat} (h : A ≤ 0x7FFF) : (imageTaken l)[A]? = l[A]? :=
  List.getElem?_take_of_lt (Nat.lt_succ_of_le h)

/-- What a read gives after a load: the image's byte where it reaches in ROM, else what it gave before (R170, R171). -/
theorem Block.readAt_loaded (b : Block) (l : List Byte) (A : Nat) :
    (b.loaded l).readAt A = if A ≤ 0x7FFF then l[A]?.getD (b.readAt A) else b.readAt A := by
  unfold Block.readAt
  rcases decodeAddr_cases A with ⟨h, e⟩ | ⟨h, h', e⟩ | ⟨h, h', e⟩ | ⟨h, e⟩ | ⟨h, e⟩ <;> rw [e]
  · simp only [Block.bank_rom, Block.loaded_rom, Memory.read_overlay, imageTaken_getElem? l h, if_pos h]
  all_goals exact (if_neg (by omega)).symm

end Sys2Proof.Machine
end

section
/-! SUPPORT. What one step does with the oldest thing presented, and what an operation keeps, reads and leaves
(spec R26, R28, R34, R55). -/

namespace Sys2Proof.Machine

open Sys2Proof.Claims

theorem step_nil {s : State} (h : s.inputs = []) : step s = .next (idle s) := by
  simp only [step, accept_nil h]

theorem step_rst {s : State} {rest : List Input} (h : s.inputs = .rst :: rest) :
    step s = .next (resetPin { s with inputs := rest }) := by
  simp only [step, accept_rst h]

theorem step_op {s : State} {w : ReqWord} {c : Cart} {rest : List Input} (h : s.inputs = .op w c :: rest) :
    step s = exec (decode w) { s with inputs := rest, cart := c } := by
  simp only [step, accept_op h]

/-- Every operation keeps the canonical form: each way it can leave the block does. -/
theorem exec_keeps_inv {i : Instr} {s t : State} (hs : s.Inv) (h : exec i s = .next t) : t.Inv := by
  obtain ⟨b, r, he, hb⟩ := exec_completes i s
  rw [h] at he
  cases he
  show b.wf
  rcases hb with rfl | ⟨a, v, -, rfl⟩ | ⟨a, v, -, rfl⟩ | ⟨-, rfl⟩ | ⟨l, -, -, -, rfl⟩
  · exact hs
  · exact Block.wf_writeAt hs _ _
  · exact Block.wf_writeAt (Block.wf_writeAt hs _ _) _ _
  · exact Block.wf_zeroed _
  · exact Block.wf_loaded hs l

/-- Two states with the same storage and the same value on `cart` answer alike and are left with the same storage:
`romLoaded` is no input of an operation (R34). -/
theorem exec_banks_congr (i : Instr) {s s' : State} (hbank : ∀ k, s.block.bank k = s'.block.bank k)
    (hcart : s.cart = s'.cart) : ∃ t t', exec i s = .next t ∧ exec i s' = .next t' ∧ t.rsp = t'.rsp ∧
      ∀ k, t.block.bank k = t'.block.bank k := by
  have hread (a : Addr) : s.block.busRead8 a = s'.block.busRead8 a := Block.readAt_congr hbank _
  cases i with
  | rdb a => exact ⟨_, _, rfl, rfl, by simp only [hread], hbank⟩
  | rdw a => exact ⟨_, _, rfl, rfl, by simp only [hread], hbank⟩
  | wrb a v =>
    obtain ⟨hb, hv⟩ := Block.writeAt_congr hbank a.toNat v
    exact ⟨_, _, rfl, rfl, by simp only [Block.busWrite8, hv], hb⟩
  | wrw a v =>
    obtain ⟨hb0, hv0⟩ := Block.writeAt_congr hbank a.toNat (lowByte v)
    obtain ⟨hb1, hv1⟩ := Block.writeAt_congr hb0 (inc16 a).toNat (highByte v)
    exact ⟨_, _, rfl, rfl, by simp only [Block.busWrite8, hv0, hv1], hb1⟩
  | dmp a b =>
    by_cases h : b.toNat < a.toNat
    · exact ⟨_, _, exec_dmp_reversed h s, exec_dmp_reversed h s', rfl, hbank⟩
    · exact ⟨_, _, exec_dmp_ordered h s, exec_dmp_ordered h s', by simp only [dumpItems_congr hbank], hbank⟩
  | load =>
    cases hc : s.cart with
    | absent => exact ⟨_, _, exec_load_absent hc, exec_load_absent (hcart ▸ hc), rfl, hbank⟩
    | image l =>
      by_cases hl : l = []
      · subst hl
        exact ⟨_, _, exec_load_empty hc, exec_load_empty (hcart ▸ hc), rfl, hbank⟩
      · refine ⟨_, _, exec_load_image hc hl, exec_load_image (hcart ▸ hc) hl, rfl, fun k => ?_⟩
        cases k with
        | rom => exact congrArg (Memory.overlay · (imageTaken l)) (hbank .rom)
        | vram => exact hbank .vram
        | wram => exact hbank .wram
  | init => exact ⟨_, _, rfl, rfl, rfl, fun _ => rfl⟩
  | clr => exact ⟨_, _, rfl, rfl, rfl, fun _ => rfl⟩
  | _ => exact ⟨_, _, rfl, rfl, rfl, hbank⟩

/-- `t` reads at every address with storage, and has in `romLoaded`, what the rules alone make of `s` by the input `x`. -/
def FollowsRules (x : Input) (s t : State) : Prop :=
  (∀ a, hitAt a = true → t.block.busRead8 a = byteAfter a (s.block.busRead8 a) x) ∧
    t.block.romLoaded = loadedAfter s.block.romLoaded x

/-- The pin leaves what the rules say (R220). -/
theorem resetPin_followsRules (s : State) : FollowsRules .rst s (resetPin s) :=
  ⟨fun _ => s.block.busRead8_zeroed, rfl⟩

/-- Every operation leaves what the rules say (R28). -/
theorem exec_followsRules (w : ReqWord) (s : State) :
    ∃ t, exec (decode w) s = .next t ∧ FollowsRules (.op w s.cart) s t := by
  simp only [FollowsRules, byteAfter, loadedAfter]
  cases decode w with
  | wrb x v => exact ⟨_, rfl, fun a ha => Block.busRead8_busWrite8 _ x v ha, Block.writeAt_romLoaded ..⟩
  | wrw x v =>
    refine ⟨_, rfl, fun a ha => ?_, (Block.writeAt_romLoaded ..).trans (Block.writeAt_romLoaded ..)⟩
    exact (Block.busRead8_busWrite8 _ (inc16 x) _ ha).trans
      (congrArg _ (Block.busRead8_busWrite8 s.block x (lowByte v) ha))
  | dmp a b =>
    by_cases h : b.toNat < a.toNat
    · exact ⟨_, exec_dmp_reversed h s, fun _ _ => rfl, rfl⟩
    · exact ⟨_, exec_dmp_ordered h s, fun _ _ => rfl, rfl⟩
  | init => exact ⟨_, rfl, fun _ => s.block.busRead8_zeroed, rfl⟩
  | clr => exact ⟨_, rfl, fun _ => s.block.busRead8_zeroed, rfl⟩
  | load =>
    cases hc : s.cart with
    | absent => exact ⟨_, exec_load_absent hc, fun _ _ => rfl, rfl⟩
    | image l =>
      by_cases hl : l = []
      · subst hl
        exact ⟨_, exec_load_empty hc, fun _ _ => by simp, by simp⟩
      · exact ⟨_, exec_load_image hc hl, fun a _ => s.block.readAt_loaded l a.toNat, by simp [hl]⟩
  | _ => exact ⟨_, rfl, fun _ _ => rfl, rfl⟩

/-- One step takes the oldest thing presented and leaves what the rules say of it (R52, R55). -/
theorem step_followsRules {s : State} {x : Input} {rest : List Input} (h : s.inputs = x :: rest) :
    ∃ t, step s = .next t ∧ t.inputs = rest ∧ FollowsRules x s t := by
  cases x with
  | rst => exact ⟨_, step_rst h, rfl, resetPin_followsRules { s with inputs := rest }⟩
  | op w c =>
    obtain ⟨t, he, ht⟩ := exec_followsRules w { s with inputs := rest, cart := c }
    exact ⟨t, (step_op h).trans he, (exec_ports he).1, ht⟩

/-- Running all that is presented leaves the fold of the rules over it (R28, R55). -/
theorem run_followsRules (l : List Input) {s : State} (h : s.inputs = l) :
    ∃ t, Host.Core.run core l.length s = .next t ∧ t.inputs = [] ∧
      (∀ a, hitAt a = true → t.block.busRead8 a = l.foldl (byteAfter a) (s.block.busRead8 a)) ∧
      t.block.romLoaded = l.foldl loadedAfter s.block.romLoaded := by
  induction l generalizing s with
  | nil => exact ⟨s, rfl, h, fun _ _ => rfl, rfl⟩
  | cons x rest ih =>
    obtain ⟨u, hstep, hu, hbyte, hflag⟩ := step_followsRules h
    obtain ⟨t, hrun, ht, htbyte, htflag⟩ := ih hu
    refine ⟨t, (run_succ_of_step hstep).trans hrun, ht, fun a ha => ?_, ?_⟩
    · rw [htbyte a ha, hbyte a ha, List.foldl_cons]
    · rw [htflag, hflag, List.foldl_cons]

end Sys2Proof.Machine

namespace Sys2Proof

open Sys2Proof.Machine Sys2Proof.Claims

/-- Settles O48: a step is idle, the pin `rst` or an operation, and each keeps the canonical form. -/
theorem stepKeepsInvariant : Obligations.StepKeepsInvariant := by
  intro s t hs h
  match hin : s.inputs with
  | [] =>
    rw [step_nil hin] at h
    cases h
    exact hs
  | .rst :: _ =>
    rw [step_rst hin] at h
    cases h
    exact s.block.wf_zeroed
  | .op w c :: rest =>
    rw [step_op hin] at h
    have hs' : State.Inv { s with inputs := rest, cart := c } := hs
    exact exec_keeps_inv hs' h

/-- Settles O33: changing `romLoaded` changes no storage array, and a ROM address has storage. -/
theorem romLoadedGatesNothing : Obligations.RomLoadedGatesNothing := by
  refine ⟨fun i s f => ?_, fun s a hs ha => ?_⟩
  · have hbank (k : Bank) : s.block.bank k = Block.bank { s.block with romLoaded := f } k := by cases k <;> rfl
    obtain ⟨t, u, ht, hu, hrsp, hk⟩ :=
      exec_banks_congr i (s' := { s with block := { s.block with romLoaded := f } }) hbank rfl
    exact ⟨t, u, ht, hu, hrsp, hk .rom, hk .vram, hk .wram⟩
  · have hhit : hitAt a = true := by
      unfold inRom at ha
      simp only [hitAt, Bool.or_eq_true, decide_eq_true_eq]
      omega
    have hread : s.block.busRead8 a = 0#8 := by
      rw [hs]
      exact Block.busRead8_zeroed Block.reset hhit
    exact ⟨_, _, rfl, rfl, congrArg zext16 hread⟩

/-- Settles O45: the reset block is the zeroed block, which `INIT` and the pin leave. -/
theorem resetStateSeenFromTheBus : Obligations.ResetStateSeenFromTheBus := by
  refine ⟨fun _ => ⟨rfl, rfl, rfl⟩, fun a => ?_, rfl, fun s => ⟨_, rfl, s.block.zeroed_eq_reset⟩,
    fun s rest h => ⟨_, step_rst h, s.block.zeroed_eq_reset⟩⟩
  cases ha : hitAt a with
  | true => exact Block.busRead8_zeroed Block.reset ha
  | false => exact Block.busRead8_of_hitAt_false _ ha

/-- Settles O49: by induction over what is presented; an address without storage reads the open bus in every block. -/
theorem readReturnsTheLatestWrite : Obligations.ReadReturnsTheLatestWrite := by
  intro s
  obtain ⟨t, hrun, hin, hbyte, hflag⟩ := run_followsRules s.inputs rfl
  exact ⟨t, hrun, hin, hbyte, fun _ => Block.busRead8_of_hitAt_false _, hflag⟩

end Sys2Proof
end

section
/-! SUPPORT. The bits of an address (spec R41), and which answers of the translator the ranges of `Sys2Proof.Claims` fix. -/

namespace Sys2Proof.Machine

open Sys2Proof.Claims

/-- A bit of an address, as arithmetic on its number. -/
theorem getLsbD_eq_decide (a : Addr) (i : Nat) : a.getLsbD i = decide (a.toNat / 2 ^ i % 2 = 1) :=
  Nat.testBit_eq_decide_div_mod_eq

/-- The low bits of an address, as arithmetic on its number. -/
theorem toNat_extract_low (a : Addr) (n : Nat) : (a.extractLsb' 0 n).toNat = a.toNat % 2 ^ n := by
  rw [BitVec.extractLsb'_toNat, Nat.shiftRight_zero]

theorem decodeAddr_of_inRom {A : Nat} (h : inRom A) : decodeAddr A = .cell .rom A := by
  unfold inRom at h
  rcases decodeAddr_cases A with ⟨_, e⟩ | ⟨_, _, e⟩ | ⟨_, _, e⟩ | ⟨_, e⟩ | ⟨_, e⟩
  · exact e
  all_goals omega

theorem decodeAddr_of_inNone {A : Nat} (h : inNone A) : decodeAddr A = .unmapped := by
  unfold inNone at h
  rcases decodeAddr_cases A with ⟨_, e⟩ | ⟨_, _, e⟩ | ⟨_, _, e⟩ | ⟨_, e⟩ | ⟨_, e⟩
  case inr.inr.inr.inl => exact e
  all_goals omega

end Sys2Proof.Machine
end

section
/-! SUPPORT. Bus writes: when one is a violation and what it then leaves (spec R49, R122), and that the writes to two
addresses commute (spec R53). -/

namespace Sys2Proof.Machine

open Sys2Proof.Claims

/-- A rejected write stores nothing. -/
theorem Block.writeAt_of_inRom (b : Block) {A : Nat} (v : Byte) (h : inRom A) : b.writeAt A v = (b, true) := by
  simp [Block.writeAt, decodeAddr_of_inRom h, romWriteProtect, Target.sel]

theorem Block.writeAt_of_unmapped (b : Block) {A : Nat} (v : Byte) (h : decodeAddr A = .unmapped) :
    b.writeAt A v = (b, false) := by
  simp [Block.writeAt, h, romWriteProtect, Target.sel]

/-- The violation bit of a bus write is the select line of ROM. -/
theorem Block.writeAt_viol (b : Block) (A : Nat) (v : Byte) : (b.writeAt A v).2 = (decodeAddr A).sel .rom := by
  rcases b.writeAt_cases A v with ⟨o, hd, e⟩ | ⟨k, o, hk, hd, e⟩ | ⟨hd | hd, e⟩ <;> rw [e, hd]
  case inr.inl => exact (beq_eq_false_iff_ne.2 hk).symm
  all_goals rfl

/-- A bus write is a violation exactly in ROM, whatever the block and the value are. -/
theorem Block.writeAt_viol_iff (b : Block) (A : Nat) (v : Byte) : (b.writeAt A v).2 = true ↔ inRom A := by
  rw [Block.writeAt_viol, ← Bool.not_eq_false, decodeAddr_sel_rom, inRom]
  omega

/-- The block after a bus write: as it was, or with the one cell of the address written. Which of the two it is depends on
the address alone. -/
theorem Block.writeAt_keeps_or_stores (A : Nat) (v : Byte) :
    (∀ b : Block, (b.writeAt A v).1 = b) ∨
    ∃ k o, decodeAddr A = .cell k o ∧ ∀ b : Block, (b.writeAt A v).1 = b.setBank k ((b.bank k).write o v) := by
  cases h : decodeAddr A with
  | cell k o =>
    cases k with
    | rom => exact .inl fun b => by simp [Block.writeAt, h, romWriteProtect, Target.sel]
    | vram => exact .inr ⟨_, _, rfl, fun b => by simp [Block.writeAt, h, romWriteProtect, Target.sel]⟩
    | wram => exact .inr ⟨_, _, rfl, fun b => by simp [Block.writeAt, h, romWriteProtect, Target.sel]⟩
  | unmapped => exact .inl fun b => by rw [b.writeAt_of_unmapped v h]
  | invalid => exact .inl fun b => by simp [Block.writeAt, h, romWriteProtect, Target.sel]

@[simp] theorem Block.setBank_setBank_self (b : Block) (k : Bank) (m n : Memory) :
    (b.setBank k m).setBank k n = b.setBank k n := by cases k <;> rfl

theorem Block.setBank_comm (b : Block) {j k : Bank} (m n : Memory) (h : j ≠ k) :
    (b.setBank j m).setBank k n = (b.setBank k n).setBank j m := by
  revert h
  cases j <;> cases k <;> simp [Block.setBank]

/-- Writes to two cells of a canonical array commute, as lists. -/
theorem Memory.write_comm {size : Nat} {m : Memory} (h : m.wf size) {o p : Nat} (ho : o < size) (hp : p < size)
    (hne : o ≠ p) (v w : Byte) : (m.write o v).write p w = (m.write p w).write o v := by
  refine Memory.ext_of_wf (Memory.wf_write (Memory.wf_write h ho v) hp w)
    (Memory.wf_write (Memory.wf_write h hp w) ho v) fun q => ?_
  simp only [Memory.read_write]
  by_cases hq : q = o
  · subst hq
    simp only [if_pos, if_neg hne]
  · simp only [if_neg hq]

/-- Bus writes to two addresses commute: they are two different cells, or one of the writes stores nothing. -/
theorem Block.writeAt_comm {b : Block} (h : b.wf) {A B : Nat} (hne : A ≠ B) (v w : Byte) :
    ((b.writeAt A v).1.writeAt B w).1 = ((b.writeAt B w).1.writeAt A v).1 := by
  rcases Block.writeAt_keeps_or_stores A v with eA | ⟨j, o, hA, eA⟩
  · simp only [eA]
  rcases Block.writeAt_keeps_or_stores B w with eB | ⟨k, p, hB, eB⟩
  · simp only [eB]
  simp only [eA, eB]
  by_cases hjk : j = k
  · subst hjk
    have hop : o ≠ p := fun e => hne (decodeAddr_inj hA (e ▸ hB))
    have hbank := (Block.wf_iff b).1 h j
    simp only [Block.bank_setBank_self, Block.setBank_setBank_self,
      Memory.write_comm hbank (decodeAddr_offset_lt hA) (decodeAddr_offset_lt hB) hop v w]
  · rw [b.bank_setBank_ne _ (Ne.symm hjk), b.bank_setBank_ne _ hjk, b.setBank_comm _ _ hjk]

end Sys2Proof.Machine
end

section
/-! SUPPORT. The response of a bus access (spec R76, R77, R126), and the operations that leave the block or `rom` as it was
(spec R23, R48). -/

namespace Sys2Proof.Machine

open Sys2Proof.Claims

/-- The located fields of an address without storage: the not-found sentinel of D6. -/
theorem Response.locate_of_unmapped {a : Addr} (h : decodeAddr a.toNat = .unmapped) :
    Response.okay.locate a = { okay with region := .unmapped } := by
  simp only [Response.locate, h]
  rfl

@[simp] theorem violBits_lane0 (v0 v1 : Bool) : (violBits v0 v1).getLsbD 0 = v0 := by
  cases v0 <;> cases v1 <;> rfl

@[simp] theorem violBits_lane1 (v0 v1 : Bool) : (violBits v0 v1).getLsbD 1 = v1 := by
  cases v0 <;> cases v1 <;> rfl

@[simp] theorem Response.written_viol (r : Response) (v0 v1 : Bool) : (r.written v0 v1).viol = violBits v0 v1 := by
  unfold Response.written
  split <;> rfl

/-- A write with no lane rejected reports nothing. -/
theorem Response.written_of_accepted (r : Response) : r.written false false = { r with viol := 0#2 } := by
  simp only [Response.written, Bool.or_false, Bool.false_eq_true, if_false, show violBits false false = 0#2 by decide]

/-- A rejected lane is reported. -/
theorem Response.written_of_rejected (r : Response) {v0 v1 : Bool} (h : v0 = true ∨ v1 = true) :
    (r.written v0 v1).ok = false ∧ (r.written v0 v1).err = .roViolation := by
  have hv : (v0 || v1) = true := (Bool.or_eq_true v0 v1).mpr h
  simp only [Response.written, hv, if_true, Response.report_ok, Response.report_err, and_self]

theorem exec_rdb (a : Addr) (s : State) :
    exec (.rdb a) s = complete s s.block { Response.okay.locate a with rdata := zext16 (s.block.busRead8 a) } := rfl

theorem exec_wrb (a : Addr) (v : Byte) (s : State) :
    exec (.wrb a v) s = complete s (s.block.busWrite8 a v).1
      ((Response.okay.locate a).written (s.block.busWrite8 a v).2 false) := rfl

/-- An operation that only reads or classifies leaves the block (R48). -/
theorem exec_block_of_onlyReads {i : Instr} {s t : State} (hi : onlyReads i) (h : exec i s = .next t) :
    t.block = s.block := by
  obtain ⟨b, r, he, hb⟩ := exec_completes i s
  rw [h] at he
  cases he
  rcases hb with hb | ⟨a, v, rfl, -⟩ | ⟨a, v, rfl, -⟩ | ⟨rfl | rfl, -⟩ | ⟨l, rfl, -⟩
  · exact hb
  all_goals exact hi.elim

/-- An operation that left the block as it was answers the same state again. -/
theorem exec_repeats {i : Instr} {s t : State} (h : exec i s = .next t) (hb : t.block = s.block) :
    exec i t = .next t := by
  obtain ⟨-, hcart, -⟩ := exec_ports h
  obtain ⟨b, r, he, he'⟩ := exec_completes_alike i hb hcart
  rw [h] at he
  cases he
  exact he'

/-- An operation that is none of `LOAD`, `INIT`, `CLR` leaves `rom` (R23, R49). -/
theorem exec_rom_of_not_writesRom {i : Instr} {s t : State} (hi : ¬ writesRom i) (h : exec i s = .next t) :
    t.block.rom = s.block.rom := by
  obtain ⟨b, r, he, hb⟩ := exec_completes i s
  rw [h] at he
  cases he
  rcases hb with rfl | ⟨a, v, -, rfl⟩ | ⟨a, v, -, rfl⟩ | ⟨rfl | rfl, -⟩ | ⟨l, rfl, -⟩
  · rfl
  · exact Block.writeAt_rom ..
  · exact (Block.writeAt_rom ..).trans (Block.writeAt_rom ..)
  all_goals exact absurd trivial hi

end Sys2Proof.Machine

namespace Sys2Proof

open Sys2Proof.Machine Sys2Proof.Claims

/-- Settles O2: each range of the map fixes the high bits, and its start is a multiple of its size. -/
theorem addressMapByBits : Obligations.AddressMapByBits := by
  intro a
  simp only [getLsbD_eq_decide, toNat_extract_low]
  rcases decodeAddr_cases a.toNat with ⟨h, e⟩ | ⟨h, h', e⟩ | ⟨h, h', e⟩ | ⟨h | h, e⟩ | ⟨h, -⟩
  · have h15 : ¬ a.toNat / 2 ^ 15 % 2 = 1 := by omega
    have hoff : a.toNat % 2 ^ 15 = a.toNat := by omega
    simp only [e, h15, hoff, decide_false]
  · have h15 : a.toNat / 2 ^ 15 % 2 = 1 := by omega
    have h14 : ¬ a.toNat / 2 ^ 14 % 2 = 1 := by omega
    have h13 : ¬ a.toNat / 2 ^ 13 % 2 = 1 := by omega
    have hoff : a.toNat % 2 ^ 13 = a.toNat - 0x8000 := by omega
    simp only [e, h15, h14, h13, hoff, decide_true, decide_false]
  · have h15 : a.toNat / 2 ^ 15 % 2 = 1 := by omega
    have h14 : a.toNat / 2 ^ 14 % 2 = 1 := by omega
    have h13 : ¬ a.toNat / 2 ^ 13 % 2 = 1 := by omega
    have hoff : a.toNat % 2 ^ 13 = a.toNat - 0xC000 := by omega
    simp only [e, h15, h14, h13, hoff, decide_true, decide_false]
  · have h15 : a.toNat / 2 ^ 15 % 2 = 1 := by omega
    have h14 : ¬ a.toNat / 2 ^ 14 % 2 = 1 := by omega
    have h13 : a.toNat / 2 ^ 13 % 2 = 1 := by omega
    simp only [e, h15, h14, h13, decide_true, decide_false]
  · have h15 : a.toNat / 2 ^ 15 % 2 = 1 := by omega
    have h14 : a.toNat / 2 ^ 14 % 2 = 1 := by omega
    have h13 : a.toNat / 2 ^ 13 % 2 = 1 := by omega
    simp only [e, h15, h14, h13, decide_true]
  · exact absurd a.isLt (by omega)

/-- Settles O16: a read leaves the block, and what an operation answers depends on the block and `cart` alone. -/
theorem readsHaveNoSideEffectAndRepeat : Obligations.ReadsHaveNoSideEffectAndRepeat := by
  intro i s hi
  obtain ⟨b, r, h, -⟩ := exec_completes i s
  have hblock := exec_block_of_onlyReads hi h
  exact ⟨_, h, hblock, rfl, rfl, fun a => congrArg (Block.busRead8 · a) hblock, exec_repeats h hblock⟩

/-- Settles O17: the two lanes are at different addresses, so their writes commute. -/
theorem laneOrderCannotBeSeen : Obligations.LaneOrderCannotBeSeen := by
  intro s a v hs
  have hne : a.toNat ≠ (inc16 a).toNat := fun e => inc16_ne a (BitVec.eq_of_toNat_eq e.symm)
  exact ⟨_, rfl, Block.writeAt_comm hs hne (lowByte v) (highByte v)⟩

/-- Settles O19: the translator answers UNMAPPED, for which there is no cell to read or to write. -/
theorem unmappedAccessIsNoError : Obligations.UnmappedAccessIsNoError := by
  intro s a v ha
  have hd : decodeAddr a.toNat = .unmapped := decodeAddr_of_inNone ha
  have hread : s.block.busRead8 a = 0xFF#8 := s.block.readAt_of_no_hit (by rw [hd]; rfl)
  have hwrite : s.block.busWrite8 a v = (s.block, false) := s.block.writeAt_of_unmapped v hd
  constructor
  · rw [exec_rdb, Response.locate_of_unmapped hd, hread]
    rfl
  · rw [exec_wrb, hwrite, Response.locate_of_unmapped hd, Response.written_of_accepted]
    rfl

/-- Settles O20: a lane is rejected exactly in ROM and a rejected lane is reported; no operation but `LOAD`, `INIT` and
`CLR` leaves another `rom`. -/
theorem busNeverWritesRom : Obligations.BusNeverWritesRom := by
  refine ⟨fun s a v ha => ?_, fun s a v => ?_, fun i s hi => ?_⟩
  · have hwrite : s.block.busWrite8 a v = (s.block, true) := s.block.writeAt_of_inRom v ha
    rw [exec_wrb, hwrite]
    have hviol : violBits true false = 0b01#2 := by decide
    exact ⟨_, rfl, (Response.written_viol ..).trans hviol, Response.written_of_rejected _ (.inl rfl)⟩
  · have hlane0 := s.block.writeAt_viol_iff a.toNat (lowByte v)
    have hlane1 := (s.block.busWrite8 a (lowByte v)).1.writeAt_viol_iff (inc16 a).toNat (highByte v)
    refine ⟨_, _, rfl, rfl, ?_, ?_, fun h => Response.written_of_rejected _ (h.imp hlane0.2 hlane1.2)⟩
    · rw [Response.written_viol, violBits_lane0]
      exact hlane0
    · rw [Response.written_viol, violBits_lane1]
      exact hlane1
  · obtain ⟨b, r, h, -⟩ := exec_completes i s
    exact ⟨_, h, exec_rom_of_not_writesRom hi h⟩

end Sys2Proof
end

section
/-! SUPPORT. The request word against its record, and the rows of the opcode table (spec R72 to R75). -/

namespace Sys2Proof

open Sys2Proof.Machine Sys2Proof.Claims

/-- Decoding a word made of fields looks these fields up in the table. -/
theorem decode_append (op : BitVec 4) (a : Addr) (d : Word) : decode (op ++ a ++ d) = Request.select ⟨op, a, d⟩ :=
  congrArg Request.select (Request.ofWord_append op a d)

/-- A word made of four fields is the word whose `wdata` is its last two. -/
theorem decode_append_bytes (op : BitVec 4) (a : Addr) (x v : Byte) :
    decode (op ++ a ++ x ++ v) = Request.select ⟨op, a, x ++ v⟩ := by
  rw [← decode_append, BitVec.append_assoc]
  rfl

/-- The table of R74 has a row for every operation, and the row gives back every operand. -/
theorem Instr.request_select (i : Instr) : i.request.select = i := by
  cases i with
  | wrb a v => exact congrArg (Instr.wrb a) (extract_low_zeroExtend v)
  | _ => rfl

/-- The rows that name no `wdata`. -/
theorem Request.select_ignores_wdata {op : BitVec 4} (h : op ∈ [0x0#4, 0x2#4, 0x4#4, 0x5#4, 0x6#4]) (a : Addr)
    (d d' : Word) : Request.select ⟨op, a, d⟩ = Request.select ⟨op, a, d'⟩ := by
  simp only [List.mem_cons, List.not_mem_nil, or_false] at h
  rcases h with rfl | rfl | rfl | rfl | rfl <;> rfl

/-- The row of `WRB` takes the low byte of `wdata`. -/
theorem Request.select_wrb (a : Addr) (x v : Byte) : Request.select ⟨0x1#4, a, x ++ v⟩ = .wrb a v :=
  congrArg (Instr.wrb a) BitVec.extractLsb'_append_eq_right

/-- The rows from `0x8` on name no operand. -/
theorem Request.select_ignores_operands {op : BitVec 4} (h : 8 ≤ op.toNat) (a a' : Addr) (d d' : Word) :
    Request.select ⟨op, a, d⟩ = Request.select ⟨op, a', d'⟩ := by
  have hop : op.toNat < 16 := op.isLt
  unfold Request.select
  interval_cases op.toNat <;> rfl

/-- The requester's rows of R74 are the rows below `0x8`. -/
theorem Request.presenterOf_select_iff (r : Request) : presenterOf r.select = .requester ↔ r.op.toNat < 8 := by
  have hop : r.op.toNat < 16 := r.op.isLt
  unfold Request.select
  interval_cases r.op.toNat <;> simp [presenterOf]

/-- Bit 35 of a request is the high bit of its op code. -/
theorem highBit_eq_false_iff (w : ReqWord) : w.getLsbD 35 = false ↔ (Request.ofWord w).op.toNat < 8 := by
  have hmsb : (Request.ofWord w).op.msb = w.getLsbD 35 := by
    simp [Request.ofWord, BitVec.msb_eq_getLsbD_last]
  rw [← hmsb, BitVec.msb_eq_decide, decide_eq_false_iff_not, Nat.not_le]

/-- Settles O38: the record of an encoded operation is read back whole, and its row of the table is the operation's. -/
theorem decodeOfEncode : Obligations.DecodeOfEncode := by
  intro i
  calc decode (encode i) = i.request.select := decode_append ..
    _ = i := i.request_select

/-- Settles O39: the row that a record selects names only the fields its operation uses. -/
theorem unusedFieldsAreIgnored : Obligations.UnusedFieldsAreIgnored := by
  intro op a a' d d' x x' v
  simp only [decode_append, decode_append_bytes]
  refine ⟨fun h => Request.select_ignores_wdata h a d d', ?_, fun h => Request.select_ignores_operands h a a' d d'⟩
  rintro rfl
  rw [Request.select_wrb, Request.select_wrb]

/-- Settles O40: both sides say that the op code is below `0x8`. -/
theorem highBitSeparatesTheRequester : Obligations.HighBitSeparatesTheRequester := fun w =>
  (highBit_eq_false_iff w).trans (Request.ofWord w).presenterOf_select_iff.symm

end Sys2Proof
end

section
/-! SUPPORT. Which error class each operation can report, and how `ok` and `viol` stand with it (spec R78, R80, R197). -/

namespace Sys2Proof.Machine

open Sys2Proof.Claims

/-- The response's error class is one that the operation may report, and `ok` and `viol` are what R78 ties to the class. -/
def ReportOwned (i : Instr) (r : Response) : Prop :=
  match r.err with
  | .noError => r.ok = true ∧ r.viol = 0#2 ∧ ¬ isReserved i
  | .roViolation => r.ok = false ∧ r.viol ≠ 0#2 ∧ ((∃ a v, i = .wrb a v) ∨ ∃ a v, i = .wrw a v)
  | .ioFailure => r.ok = false ∧ r.viol = 0#2 ∧ i = .load
  | .badDump => r.ok = false ∧ r.viol = 0#2 ∧ ∃ a b, i = .dmp a b
  | .illegalOp => r.ok = false ∧ r.viol = 0#2 ∧ isReserved i

theorem violBits_ne_zero {v0 v1 : Bool} (h : v0 = true ∨ v1 = true) : violBits v0 v1 ≠ 0#2 := by
  revert v0 v1
  decide

/-- A bus write reports a rejected lane, or nothing. -/
theorem Response.written_reportOwned {i : Instr} (hi : (∃ a v, i = .wrb a v) ∨ ∃ a v, i = .wrw a v) (a : Addr)
    (v0 v1 : Bool) : ReportOwned i ((Response.okay.locate a).written v0 v1) := by
  by_cases h : v0 = true ∨ v1 = true
  · obtain ⟨hok, herr⟩ := Response.written_of_rejected (Response.okay.locate a) h
    have hviol := violBits_ne_zero h
    simp only [ReportOwned, herr]
    exact ⟨hok, by rwa [Response.written_viol], hi⟩
  · simp only [not_or, Bool.not_eq_true] at h
    obtain ⟨rfl, rfl⟩ := h
    rw [Response.written_of_accepted]
    have hres : ¬ isReserved i := by rcases hi with ⟨_, _, rfl⟩ | ⟨_, _, rfl⟩ <;> exact id
    exact ⟨rfl, rfl, hres⟩

/-- R80, for the five codes at once. -/
theorem exec_of_isReserved {i : Instr} (hi : isReserved i) (s : State) :
    exec i s = complete s s.block illegalOpResponse := by
  cases i with
  | reservedB | reservedC | reservedD | reservedE | reservedF => rfl
  | _ => exact hi.elim

/-- What an operation reports: only `WRB`, `WRW`, `DMP`, `LOAD` and the reserved codes can meet an error. -/
theorem exec_reportOwned (i : Instr) (s : State) : ∃ b r, exec i s = complete s b r ∧ ReportOwned i r := by
  cases i with
  | wrb a v => exact ⟨_, _, rfl, Response.written_reportOwned (.inl ⟨a, v, rfl⟩) ..⟩
  | wrw a v => exact ⟨_, _, rfl, Response.written_reportOwned (.inr ⟨a, v, rfl⟩) ..⟩
  | dmp a b =>
    by_cases h : b.toNat < a.toNat
    · exact ⟨_, _, exec_dmp_reversed h s, rfl, rfl, a, b, rfl⟩
    · exact ⟨_, _, exec_dmp_ordered h s, rfl, rfl, id⟩
  | load =>
    obtain ⟨c, hc⟩ : ∃ c, s.cart = c := ⟨_, rfl⟩
    cases c with
    | absent => exact ⟨_, _, exec_load_absent hc, rfl, rfl, rfl⟩
    | image l =>
      by_cases hl : l = []
      · exact ⟨_, _, exec_load_empty (hl ▸ hc), rfl, rfl, rfl⟩
      · exact ⟨_, _, exec_load_image hc hl, rfl, rfl, id⟩
  | reservedB | reservedC | reservedD | reservedE | reservedF =>
    exact ⟨_, _, rfl, rfl, rfl, trivial⟩
  | _ => exact ⟨_, _, rfl, rfl, rfl, id⟩

section

variable {i : Instr} {r : Response}

theorem ReportOwned.ok_iff (h : ReportOwned i r) : r.ok = true ↔ r.err = .noError := by
  unfold ReportOwned at h
  cases he : r.err <;> simp only [he] at h <;> obtain ⟨hok, -, -⟩ := h <;> simp [hok]

theorem ReportOwned.roViolation_iff (h : ReportOwned i r) : r.err = .roViolation ↔ r.viol ≠ 0#2 := by
  unfold ReportOwned at h
  cases he : r.err <;> simp only [he] at h <;> obtain ⟨-, hviol, -⟩ := h <;> simp [hviol]

/-- The owners of every other class are operations of R81, so none of them is a reserved code. -/
theorem ReportOwned.illegalOp_iff (h : ReportOwned i r) : r.err = .illegalOp ↔ isReserved i := by
  unfold ReportOwned at h
  cases he : r.err <;> simp only [he, reduceCtorEq, true_iff, false_iff] at h ⊢ <;> obtain ⟨-, -, howner⟩ := h
  case noError | illegalOp => exact howner
  case roViolation => rcases howner with ⟨_, _, rfl⟩ | ⟨_, _, rfl⟩ <;> exact id
  case ioFailure => subst howner; exact id
  case badDump => obtain ⟨_, _, rfl⟩ := howner; exact id

end

end Sys2Proof.Machine

namespace Sys2Proof

open Sys2Proof.Machine Sys2Proof.Claims

/-- Settles O34: the five codes have one response. -/
theorem reservedCodesReportIllegalOp : Obligations.ReservedCodesReportIllegalOp := fun _ s hi => exec_of_isReserved hi s

/-- Settles O35: every response is one its operation owns, and its class then fixes `ok`, `viol` and the owner. -/
theorem reportsAreExactAndOwned : Obligations.ReportsAreExactAndOwned := by
  intro i s
  obtain ⟨b, r, hexec, hr⟩ := exec_reportOwned i s
  refine ⟨_, r, hexec, rfl, hr.ok_iff, hr.roViolation_iff, fun h => ?_, fun h => ?_, fun h => ?_, hr.illegalOp_iff⟩
  all_goals
    simp only [ReportOwned, h] at hr
    obtain ⟨-, -, howner⟩ := hr
    exact howner

end Sys2Proof
end

section
/-! SUPPORT. The address translator against the ranges of `Sys2Proof.Claims`: a cell of a storage array is its start address
plus the offset (spec R40, R100, R102, R104), and the fields that a classifier locates (spec R76, R101). -/

namespace Sys2Proof.Machine

open Sys2Proof.Claims

/-- The first address of a storage array (R40). -/
def Bank.start : Bank → Nat
  | .rom => Config.romStart
  | .vram => Config.vramStart
  | .wram => Config.wramStart

/-- The range of a storage array (R40). -/
def Bank.inRange : Bank → Nat → Prop
  | .rom => inRom
  | .vram => inVram
  | .wram => inWram

/-- A range is as long as its storage array (R20, R40). -/
theorem Bank.inRange_iff (k : Bank) (A : Nat) : k.inRange A ↔ k.start ≤ A ∧ A < k.start + k.size := by
  cases k with
  | rom =>
    simp only [Bank.inRange, inRom, Bank.start, Bank.size, Config.romStart, Config.romSize]
    omega
  | vram =>
    simp only [Bank.inRange, inVram, Bank.start, Bank.size, Config.vramStart, Config.vramSize]
    omega
  | wram =>
    simp only [Bank.inRange, inWram, Bank.start, Bank.size, Config.wramStart, Config.wramSize]
    omega

theorem decodeAddr_of_inVram {A : Nat} (h : inVram A) : decodeAddr A = .cell .vram (A - 0x8000) := by
  unfold inVram at h
  rcases decodeAddr_cases A with ⟨_, e⟩ | ⟨_, _, e⟩ | ⟨_, _, e⟩ | ⟨_, e⟩ | ⟨_, e⟩
  case inr.inl => exact e
  all_goals omega

theorem decodeAddr_of_inWram {A : Nat} (h : inWram A) : decodeAddr A = .cell .wram (A - 0xC000) := by
  unfold inWram at h
  rcases decodeAddr_cases A with ⟨_, e⟩ | ⟨_, _, e⟩ | ⟨_, _, e⟩ | ⟨_, e⟩ | ⟨_, e⟩
  case inr.inr.inl => exact e
  all_goals omega

theorem decodeAddr_of_inRange {k : Bank} {A : Nat} (h : k.inRange A) : decodeAddr A = .cell k (A - k.start) := by
  cases k with
  | rom => exact decodeAddr_of_inRom h
  | vram => exact decodeAddr_of_inVram h
  | wram => exact decodeAddr_of_inWram h

theorem decodeAddr_of_gt {A : Nat} (h : 0xFFFF < A) : decodeAddr A = .invalid := if_pos h

/-- The address of a cell: every cell is reached (R102). -/
theorem decodeAddr_start_add {k : Bank} {o : Nat} (h : o < k.size) : decodeAddr (k.start + o) = .cell k o := by
  have hrange : k.inRange (k.start + o) := (k.inRange_iff _).2 ⟨Nat.le_add_right .., Nat.add_lt_add_left h _⟩
  rw [decodeAddr_of_inRange hrange, Nat.add_sub_cancel_left]

/-- Every cell's address fits the port (R71). -/
theorem Bank.start_add_lt {k : Bank} {o : Nat} (h : o < k.size) : k.start + o < 2 ^ 16 := by
  have hend : k.start + k.size ≤ 2 ^ 16 := by cases k <;> decide
  omega

/-- What decodes to a cell is that cell's address and no other (R102). -/
theorem eq_start_add_of_decodeAddr {A : Nat} {k : Bank} {o : Nat} (h : decodeAddr A = .cell k o) : A = k.start + o :=
  decodeAddr_inj h (decodeAddr_start_add (decodeAddr_offset_lt h))

theorem Target.sel_iff (t : Target) (k : Bank) : t.sel k = true ↔ ∃ o, t = .cell k o := by
  cases t <;> simp [Target.sel]

/-- A select line is 1 exactly in its range (R104). -/
theorem decodeAddr_sel_iff (k : Bank) (A : Nat) : (decodeAddr A).sel k = true ↔ k.inRange A := by
  rw [Target.sel_iff]
  constructor
  · rintro ⟨o, h⟩
    have ho := decodeAddr_offset_lt h
    rw [eq_start_add_of_decodeAddr h, Bank.inRange_iff]
    omega
  · exact fun h => ⟨_, decodeAddr_of_inRange h⟩

/-- At most one select line is 1 (R104). -/
theorem Target.sel_unique {t : Target} {j k : Bank} (hj : t.sel j = true) (hk : t.sel k = true) : j = k := by
  obtain ⟨_, rfl⟩ := (t.sel_iff j).1 hj
  exact eq_of_beq hk

theorem decodeAddr_hit_iff (A : Nat) : (decodeAddr A).hit = true ↔ inRom A ∨ inVram A ∨ inWram A := by
  simp only [Target.hit, Bool.or_eq_true, or_assoc, decodeAddr_sel_iff, Bank.inRange]

/-- An address of the port that is in no range with storage is unmapped (R40, R71). -/
theorem inNone_of_not_inRange (a : Addr) (hr : ¬ a.toNat ≤ 0x7FFF) (hv : ¬ (0x8000 ≤ a.toNat ∧ a.toNat ≤ 0x9FFF))
    (hw : ¬ (0xC000 ≤ a.toNat ∧ a.toNat ≤ 0xDFFF)) : inNone a.toNat := by
  have ha := a.isLt
  unfold inNone
  omega

theorem regionAt_eq_region (a : Addr) : regionAt a = (decodeAddr a.toNat).region := by
  unfold regionAt
  split_ifs with hr hv hw
  · rw [decodeAddr_of_inRom hr, Target.region, Bank.region]
  · rw [decodeAddr_of_inVram hv, Target.region, Bank.region]
  · rw [decodeAddr_of_inWram hw, Target.region, Bank.region]
  · rw [decodeAddr_of_inNone (inNone_of_not_inRange a hr hv hw), Target.region]

theorem offsetAt_eq_offset (a : Addr) : offsetAt a = BitVec.ofNat 15 (decodeAddr a.toNat).offset := by
  unfold offsetAt
  split_ifs with hr hv hw
  · rw [decodeAddr_of_inRom hr, Target.offset]
  · rw [decodeAddr_of_inVram hv, Target.offset]
  · rw [decodeAddr_of_inWram hw, Target.offset]
  · rw [decodeAddr_of_inNone (inNone_of_not_inRange a hr hv hw), Target.offset]

/-- The located fields of a response are those the ranges give (R76). -/
theorem Response.locate_eq_located (r : Response) (a : Addr) : r.locate a = located r a := by
  simp only [located, hitAt_eq_hit, regionAt_eq_region, offsetAt_eq_offset, Response.locate]

/-- The response of a classifier (R153). -/
theorem classified_eq_located (a : Addr) : classified a = located okay a := Response.okay.locate_eq_located a

theorem exec_xlt (a : Addr) (s : State) : exec (.xlt a) s = complete s s.block (classified a) := rfl

theorem exec_vld (a : Addr) (s : State) : exec (.vld a) s = complete s s.block (classified a) := rfl

theorem exec_rgn (a : Addr) (s : State) : exec (.rgn a) s = complete s s.block (classified a) := rfl

theorem isValidAddress_iff (A : Nat) : isValidAddress A = true ↔ A ≤ 0x9FFF ∨ (0xC000 ≤ A ∧ A ≤ 0xDFFF) := by
  rw [isValidAddress, decodeAddr_hit_iff]
  unfold inRom inVram inWram
  omega

theorem regionName_of_decodeAddr {A : Nat} {t : Target} (h : decodeAddr A = t) : regionName A = t.region.name :=
  congrArg (·.region.name) h

end Sys2Proof.Machine

namespace Sys2Proof

open Sys2Proof.Machine Sys2Proof.Claims

/-- Settles O1: the range that holds the address is the row of the region table that covers it. -/
theorem addressMapByRanges : Obligations.AddressMapByRanges := fun _ =>
  ⟨decodeAddr_of_gt, decodeAddr_of_inRom, decodeAddr_of_inVram, decodeAddr_of_inWram, decodeAddr_of_inNone⟩

/-- Settles O3: the one address of a cell is the start of its storage array plus the offset, and it fits 16 bits. -/
theorem everyCellHasExactlyOneAddress : Obligations.EveryCellHasExactlyOneAddress := by
  refine ⟨fun _ _ _ => decodeAddr_offset_lt, fun k o ho => ⟨BitVec.ofNat 16 (k.start + o), ?_⟩⟩
  rw [BitVec.toNat_ofNat, Nat.mod_eq_of_lt (Bank.start_add_lt ho)]
  exact ⟨decodeAddr_start_add ho, fun _ => eq_start_add_of_decodeAddr⟩

/-- Settles O4: a select line is 1 exactly for a cell of its storage array, and a cell is of one storage array. -/
theorem selectLinesNameTheClass : Obligations.SelectLinesNameTheClass := fun A =>
  ⟨decodeAddr_sel_iff .rom A, decodeAddr_sel_iff .vram A, decodeAddr_sel_iff .wram A, fun _ _ => Target.sel_unique,
    decodeAddr_hit_iff A⟩

/-- Settles O5: the three classifiers complete with one response, whose located fields are those of the ranges; on any
width both functions read the translator's answer. -/
theorem classifiersAnswerHitRegionOffset : Obligations.ClassifiersAnswerHitRegionOffset := by
  constructor
  · intro s a
    rw [exec_xlt, exec_vld, exec_rgn, classified_eq_located]
    exact ⟨rfl, rfl, rfl⟩
  · exact fun A => ⟨isValidAddress_iff A,
      fun h => regionName_of_decodeAddr (decodeAddr_of_inRom h),
      fun h => regionName_of_decodeAddr (decodeAddr_of_inVram h),
      fun h => regionName_of_decodeAddr (decodeAddr_of_inWram h),
      fun h => regionName_of_decodeAddr (decodeAddr_of_inNone h),
      fun h => regionName_of_decodeAddr (decodeAddr_of_gt h)⟩

end Sys2Proof
end

section
/-! SUPPORT. The bus accesses against the ranges of `Sys2Proof.Claims` (spec R121, R122), what a write leaves for the read after
it (spec R128), and the completions of the word operations (spec R125, R126). -/

namespace Sys2Proof.Machine

open Sys2Proof.Claims

theorem Block.readAt_of_cell (b : Block) {A : Nat} {k : Bank} {o : Nat} (h : decodeAddr A = .cell k o) :
    b.readAt A = (b.bank k).read o := by
  rw [Block.readAt, h]

/-- A bus read is that of the range that holds the address (R121). -/
theorem Block.busRead8_eq_byteAt (b : Block) (a : Addr) : b.busRead8 a = byteAt b a := by
  unfold byteAt Block.busRead8
  split_ifs with hr hv hw
  · exact b.readAt_of_cell (decodeAddr_of_inRom hr)
  · exact b.readAt_of_cell (decodeAddr_of_inVram hv)
  · exact b.readAt_of_cell (decodeAddr_of_inWram hw)
  · have hd := decodeAddr_of_inNone (inNone_of_not_inRange a hr hv hw)
    exact b.readAt_of_no_hit (by rw [hd]; rfl)

theorem Block.writeAt_of_cell (b : Block) {A : Nat} {k : Bank} {o : Nat} (v : Byte) (hk : k ≠ .rom)
    (h : decodeAddr A = .cell k o) : b.writeAt A v = (b.setBank k ((b.bank k).write o v), false) := by
  simp [Block.writeAt, h, romWriteProtect, Target.sel, hk]

theorem Block.writeAt_of_invalid (b : Block) {A : Nat} (v : Byte) (h : decodeAddr A = .invalid) :
    b.writeAt A v = (b, false) := by
  simp [Block.writeAt, h, romWriteProtect, Target.sel]

/-- A bus write stores in the range that holds the address (R122). -/
theorem Block.busWrite8_fst_eq_storeAt (b : Block) (a : Addr) (v : Byte) : (b.busWrite8 a v).1 = storeAt b a v := by
  unfold storeAt Block.busWrite8
  split_ifs with hv hw
  · rw [b.writeAt_of_cell v (by decide) (decodeAddr_of_inVram hv)]
    rfl
  · rw [b.writeAt_of_cell v (by decide) (decodeAddr_of_inWram hw)]
    rfl
  · by_cases hr : a.toNat ≤ 0x7FFF
    · rw [b.writeAt_of_inRom v hr]
    · rw [b.writeAt_of_unmapped v (decodeAddr_of_inNone (inNone_of_not_inRange a hr hv hw))]

/-- The violation bit of a bus write is that of its address (R122, R193). -/
theorem Block.busWrite8_snd_eq_violAt (b : Block) (a : Addr) (v : Byte) : (b.busWrite8 a v).2 = violAt a := by
  rw [Bool.eq_iff_iff, violAt, decide_eq_true_iff]
  exact b.writeAt_viol_iff a.toNat v

theorem Block.busRead8_busWrite8_ne (b : Block) {a c : Addr} (v : Byte) (h : c ≠ a) :
    (b.busWrite8 a v).1.busRead8 c = b.busRead8 c :=
  b.readAt_writeAt_ne v fun e => h (BitVec.eq_of_toNat_eq e)

/-- A byte written to VRAM or WRAM is read back (R128). -/
theorem Block.busRead8_busWrite8_self (b : Block) {a : Addr} (v : Byte) (h : inVram a.toNat ∨ inWram a.toNat) :
    (b.busWrite8 a v).1.busRead8 a = v := by
  rcases h with h | h
  · exact b.readAt_writeAt_self v (by decide) (decodeAddr_of_inVram h)
  · exact b.readAt_writeAt_self v (by decide) (decodeAddr_of_inWram h)

theorem hitAt_iff (a : Addr) : hitAt a = true ↔ inRom a.toNat ∨ inVram a.toNat ∨ inWram a.toNat := by
  rw [hitAt_eq_hit, decodeAddr_hit_iff]

theorem decodeAddr_of_hitAt_false {a : Addr} (h : hitAt a = false) : decodeAddr a.toNat = .unmapped := by
  have hn : ¬ (inRom a.toNat ∨ inVram a.toNat ∨ inWram a.toNat) := by simp [← hitAt_iff, h]
  simp only [not_or] at hn
  obtain ⟨hr, hv, hw⟩ := hn
  exact decodeAddr_of_inNone (inNone_of_not_inRange a hr hv hw)

/-- Where the next address has storage there is no wrap (R120). -/
theorem inc16_toNat {a : Addr} (h : inVram (a.toNat + 1) ∨ inWram (a.toNat + 1)) : (inc16 a).toNat = a.toNat + 1 := by
  have hlt : a.toNat + 1 < 2 ^ 16 := by
    unfold inVram inWram at h
    omega
  exact BitVec.toNat_add_of_lt hlt

/-- The response of a bus write is that of the ranges (R124, R126). -/
theorem written_eq_writeResponse (a : Addr) (v0 v1 : Bool) :
    (Response.okay.locate a).written v0 v1 = writeResponse a v0 v1 := by
  rw [Response.locate_eq_located]
  rfl

/-- Each lane of a word write has the violation bit that its byte write would have (R129). -/
theorem violBits_eq_append_lanes (v0 v1 : Bool) :
    violBits v0 v1 = (violBits v1 false).extractLsb' 0 1 ++ (violBits v0 false).extractLsb' 0 1 := by
  revert v0 v1
  decide

theorem exec_init (s : State) : exec .init s = complete s s.block.zeroed Response.okay := rfl

theorem exec_rdw (a : Addr) (s : State) :
    exec (.rdw a) s = complete s s.block
      { Response.okay.locate a with rdata := joinWord (s.block.busRead8 a) (s.block.busRead8 (inc16 a)) } := rfl

/-- A word write is a byte write at `addr` and then one at `inc16(addr)` (R126). -/
theorem exec_wrw (a : Addr) (v : Word) (s : State) :
    exec (.wrw a v) s = complete s ((s.block.busWrite8 a (lowByte v)).1.busWrite8 (inc16 a) (highByte v)).1
      ((Response.okay.locate a).written (s.block.busWrite8 a (lowByte v)).2
        ((s.block.busWrite8 a (lowByte v)).1.busWrite8 (inc16 a) (highByte v)).2) := rfl

end Sys2Proof.Machine

namespace Sys2Proof

open Sys2Proof.Machine Sys2Proof.Claims

/-- Settles O7: each range of the map names the cell that the translator answers. -/
theorem busReadFollowsTheMap : Obligations.BusReadFollowsTheMap := fun b =>
  ⟨b.busRead8_eq_byteAt, fun _ h => b.readAt_of_no_hit (by rw [decodeAddr_of_gt h]; rfl)⟩

/-- Settles O8: the stored block and the violation bit each follow the ranges. -/
theorem busWriteFollowsTheMap : Obligations.BusWriteFollowsTheMap := fun b v =>
  ⟨fun a => Prod.ext (b.busWrite8_fst_eq_storeAt a v) (b.busWrite8_snd_eq_violAt a v),
    fun _ h => b.writeAt_of_invalid v (decodeAddr_of_gt h)⟩

/-- Settles O9: the completion of `RDB`, with the byte and the located fields of the ranges. -/
theorem rdbReturnsTheByte : Obligations.RdbReturnsTheByte := by
  intro s a
  rw [exec_rdb, Block.busRead8_eq_byteAt, Response.locate_eq_located]
  rfl

/-- Settles O10: the completion of `WRB`, with the block, the violation bit and the response of the ranges. -/
theorem wrbStoresDiscardsOrRejects : Obligations.WrbStoresDiscardsOrRejects := by
  intro s a v
  rw [exec_wrb, Block.busWrite8_fst_eq_storeAt, Block.busWrite8_snd_eq_violAt, written_eq_writeResponse]
  rfl

/-- Settles O11: each byte is that of its own address, and their join is `{high, low}`. -/
theorem rdwJoinsTwoIndependentBytes : Obligations.RdwJoinsTwoIndependentBytes := by
  intro s a
  rw [exec_rdw, joinWord_eq_append, Block.busRead8_eq_byteAt, Block.busRead8_eq_byteAt, Response.locate_eq_located]
  rfl

/-- Settles O12: each lane stores, and has its violation bit, by its own address. -/
theorem wrwWritesTwoIndependentBytes : Obligations.WrwWritesTwoIndependentBytes := by
  intro s a v
  simp only [exec_wrw, Block.busWrite8_fst_eq_storeAt, Block.busWrite8_snd_eq_violAt, written_eq_writeResponse]
  rfl

/-- Settles O18: `RDB` leaves the block for the second read, and `WRB` the block that lane 1 of `WRW` writes. -/
theorem wordOperationIsTwoByteOperations : Obligations.WordOperationIsTwoByteOperations := by
  intro s a v
  constructor
  · exact ⟨_, _, _, _, _, _, exec_rdw a s, exec_rdb a s, exec_rdb (inc16 a) _, rfl, rfl, rfl, rfl, rfl⟩
  · refine ⟨_, _, _, _, _, _, exec_wrw a v s, exec_wrb a _ s, exec_wrb (inc16 a) _ _, rfl, rfl, rfl, rfl, ?_⟩
    simp only [Response.written_viol]
    exact violBits_eq_append_lanes _ _

/-- Settles O21: the laws of `RDB` and `WRB` are those of one bus read after one bus write; a word is read back because
lane 1 is at another address than lane 0 and, where it has storage, at the next one. -/
theorem readWriteLaws : Obligations.ReadWriteLaws := by
  refine ⟨fun s a ha => ?_, fun s a ha => ?_, fun s a v ha => ?_, fun s a v ha => ?_, fun s a v ha ha' => ?_,
    fun s a c v hne => ?_⟩
  · have hread := s.block.busRead8_zeroed ((hitAt_iff a).2 ha)
    exact ⟨_, _, _, exec_init s, exec_rdb a _, rfl, congrArg zext16 hread⟩
  · have hmiss : hitAt a = false := by rwa [← hitAt_iff, Bool.not_eq_true] at ha
    have hread := s.block.busRead8_of_hitAt_false hmiss
    have hname := regionName_of_decodeAddr (decodeAddr_of_hitAt_false hmiss)
    exact ⟨_, _, exec_rdb a s, rfl, congrArg zext16 hread, (hitAt_eq_hit a).symm.trans hmiss, hname⟩
  · have hwrite : s.block.busWrite8 a v = (s.block, true) := s.block.writeAt_of_inRom v ha
    rw [exec_wrb, hwrite]
    exact ⟨_, _, _, rfl, exec_rdb a _, exec_rdb a s, rfl⟩
  · have hread := s.block.busRead8_busWrite8_self v ha
    exact ⟨_, _, _, exec_wrb a v s, exec_rdb a _, rfl, congrArg zext16 hread⟩
  · have hlow := s.block.busRead8_busWrite8_self (lowByte v) ha
    have hkeep := (s.block.busWrite8 a (lowByte v)).1.busRead8_busWrite8_ne (highByte v) (inc16_ne a).symm
    rw [← inc16_toNat ha'] at ha'
    have hhigh := (s.block.busWrite8 a (lowByte v)).1.busRead8_busWrite8_self (highByte v) ha'
    exact ⟨_, _, _, exec_wrw a v s, exec_rdw a _, rfl,
      (congrArg₂ joinWord (hkeep.trans hlow) hhigh).trans (joinWord_split v)⟩
  · exact ⟨_, exec_wrb a v s, s.block.busRead8_busWrite8_ne v hne⟩

end Sys2Proof
end

section
/-! SUPPORT. The select lines and `hit` of a target against its class (spec R79, R104, R152): what `VLD` answers is a function of
what `RGN` answers. -/

namespace Sys2Proof.Machine

theorem Bank.region_inj {j k : Bank} : j.region = k.region ↔ j = k := by
  cases j <;> cases k <;> decide

/-- A select line is 1 exactly when the class is that of its storage array (R104). -/
theorem Target.sel_iff_region (t : Target) (k : Bank) : t.sel k = true ↔ t.region = k.region := by
  cases t with
  | cell j o => exact beq_iff_eq.trans Bank.region_inj.symm
  | unmapped => cases k <;> decide
  | invalid => cases k <;> decide

theorem Target.hit_iff_region (t : Target) :
    t.hit = true ↔ t.region = .rom ∨ t.region = .vram ∨ t.region = .wram := by
  simp only [Target.hit, Bool.or_eq_true, or_assoc, Target.sel_iff_region, Bank.region]

/-- The two classes without storage are the others (R79). -/
theorem Region.not_storage_iff (c : Region) :
    ¬ (c = .rom ∨ c = .vram ∨ c = .wram) ↔ c = .unmapped ∨ c = .invalid := by
  cases c <;> decide

theorem Target.no_hit_iff_region (t : Target) : t.hit = false ↔ t.region = .unmapped ∨ t.region = .invalid := by
  rw [← Bool.not_eq_true, Target.hit_iff_region, Region.not_storage_iff]

end Sys2Proof.Machine

namespace Sys2Proof

open Sys2Proof.Machine Sys2Proof.Claims

/-- Settles O6: both operations complete with the classifier's response, whose `hit` and `region` are those of one target; the
six region ends are evaluated. -/
theorem validityAgreesWithRegion : Obligations.ValidityAgreesWithRegion := by
  intro s
  constructor
  · exact fun a => ⟨classified a, classified a, exec_vld a s, exec_rgn a s, (decodeAddr a.toNat).hit_iff_region,
      (decodeAddr a.toNat).no_hit_iff_region⟩
  · refine fun e he => ⟨classified e.1, exec_vld e.1 s, exec_rgn e.1 s, ?_⟩
    revert e
    simp only [List.forall_mem_cons]
    exact ⟨by decide, by decide, by decide, by decide, by decide, by decide, List.forall_mem_nil _⟩

end Sys2Proof
end

section
/-! SUPPORT. The dump: a byte that is printable (spec R160), the items of the stream (spec R161), and the rows and lines that a
caller cuts it into (spec R162, R163). -/

namespace Sys2Proof.Machine

theorem printable_iff (b : Byte) : printable b = true ↔ 32 ≤ b.toNat ∧ b.toNat ≤ 126 := by
  rw [printable, Bool.and_eq_true, decide_eq_true_iff, decide_eq_true_iff, Config.printLo, Config.printHi]

/-- The address of an item, where it is on the bus: no item of a range wraps (R161). -/
theorem dumpAddr_toNat {start : Addr} {i : Nat} (h : start.toNat + i < 2 ^ 16) :
    (dumpAddr start i).toNat = start.toNat + i := by
  rw [dumpAddr, BitVec.toNat_add, BitVec.toNat_ofNat, Nat.add_mod_mod, Nat.mod_eq_of_lt h]

@[simp] theorem dumpItems_length (b : Block) (start : Addr) (n : Nat) : (dumpItems b start n).length = n := by
  simp [dumpItems]

theorem dumpItems_getElem?_of_lt (b : Block) (start : Addr) {n i : Nat} (h : i < n) :
    (dumpItems b start n)[i]? = some (dumpItem b (dumpAddr start i)) := by
  simp [dumpItems, h]

theorem dumpItems_getElem?_eq_some {b : Block} {start : Addr} {n i : Nat} {x : DumpItem}
    (h : (dumpItems b start n)[i]? = some x) : i < n ∧ x = dumpItem b (dumpAddr start i) := by
  obtain ⟨hi, rfl⟩ := List.getElem?_eq_some_iff.1 h
  exact ⟨by simpa using hi, by simp [dumpItems]⟩

/-- What an item is shown as follows from its byte alone (R160, R163). -/
theorem dumpItem_shown (b : Block) (a : Addr) :
    (dumpItem b a).shown = if 32 ≤ (dumpItem b a).b.toNat ∧ (dumpItem b a).b.toNat ≤ 126
      then Char.ofNat (dumpItem b a).b.toNat else '.' := by
  simp only [← printable_iff]
  rfl

/-- Item `j` of row `k` is item `16k + j` of the stream (R162). -/
theorem dumpRow_getElem? (items : List DumpItem) (k : Nat) {j : Nat} (h : j < 16) :
    (dumpRow items k)[j]? = items[16 * k + j]? := by
  rw [dumpRow, Config.dumpRowLen, List.getElem?_take_of_lt h, List.getElem?_drop]

/-- The first `m` rows joined are the first `16m` items. -/
theorem flatten_dumpRow_range (items : List DumpItem) (m : Nat) :
    ((List.range m).map (dumpRow items)).flatten = items.take (16 * m) := by
  induction m with
  | zero => rfl
  | succ m ih =>
    rw [List.range_succ, List.map_append, List.flatten_append, ih, Nat.mul_succ, List.take_add]
    exact congrArg _ (List.append_nil _)

theorem dumpRows_flatten (items : List DumpItem) : (dumpRows items).flatten = items := by
  have hcover : items.length ≤ 16 * dumpRowCount items := by
    simp only [dumpRowCount, Config.dumpRowLen]
    omega
  rw [dumpRows, flatten_dumpRow_range, List.take_of_length_le hcover]

/-- A row that exists begins inside the stream. -/
theorem lt_length_of_dumpRows_getElem? {items row : List DumpItem} {k : Nat} (h : (dumpRows items)[k]? = some row) :
    16 * k < items.length := by
  obtain ⟨hk, -⟩ := List.getElem?_eq_some_iff.1 h
  rw [dumpRows_length] at hk
  omega

theorem listing_length (start : Addr) (items : List DumpItem) :
    (listing start items).length = (dumpRows items).length := by
  simp [listing, dumpRows]

theorem listingRow_blanks_of_not_last (start : Addr) {items : List DumpItem} {k : Nat}
    (h : k + 1 < (dumpRows items).length) : (listingRow start items k).blanks = 0 := by
  rw [dumpRows_length] at h
  rw [listingRow_blanks, dumpRow_length, Config.dumpRowLen]
  omega

theorem listingRow_blanks_of_short_last (start : Addr) {items : List DumpItem} {k : Nat}
    (h : k + 1 = (dumpRows items).length) (hshort : items.length % 16 ≠ 0) :
    (listingRow start items k).blanks = 16 - items.length % 16 := by
  rw [dumpRows_length] at h
  rw [listingRow_blanks, dumpRow_length, Config.dumpRowLen]
  omega

/-- The base of a line is the address of the first item of its row (R163). -/
theorem dumpRow_head_of_listingRow_base (b : Block) (start : Addr) {n k : Nat} (h : 16 * k < n) :
    ∃ x, (dumpRow (dumpItems b start n) k)[0]? = some x ∧ (listingRow start (dumpItems b start n) k).base = x.a :=
  ⟨_, (dumpRow_getElem? _ k (by decide)).trans (dumpItems_getElem?_of_lt b start h), rfl⟩

/-- The character that a line has for an item of its row (R163). -/
theorem listingRow_ascii_getElem? {b : Block} {start : Addr} {n k j : Nat} {x : DumpItem}
    (h : (dumpRow (dumpItems b start n) k)[j]? = some x) :
    (listingRow start (dumpItems b start n) k).ascii[j]? =
      some (if 32 ≤ x.b.toNat ∧ x.b.toNat ≤ 126 then Char.ofNat x.b.toNat else '.') := by
  have hmem : x ∈ dumpItems b start n := List.mem_of_mem_drop (List.mem_of_mem_take (List.mem_of_getElem? h))
  obtain ⟨i, -, rfl⟩ := List.mem_map.1 hmem
  rw [listingRow_ascii, List.getElem?_map, h, Option.map_some, dumpItem_shown]

end Sys2Proof.Machine

namespace Sys2Proof

open Sys2Proof.Machine Sys2Proof.Claims

/-- Settles O22. -/
theorem printableRange : Obligations.PrintableRange := printable_iff

/-- Settles O23: the stream ends at `end`, which is on the bus, so the address of an item does not wrap. -/
theorem dumpStreamsTheRange : Obligations.DumpStreamsTheRange := by
  refine fun s start last => ⟨fun h => exec_dmp_reversed h s, fun h =>
    ⟨_, exec_dmp_ordered (Nat.not_lt.2 h) s, dumpItems_length .., fun n x hx => ?_⟩⟩
  obtain ⟨hn, rfl⟩ := dumpItems_getElem?_eq_some hx
  have hbus : start.toNat + n < 2 ^ 16 := by
    have hlast := last.isLt
    unfold dumpCount at hn
    omega
  exact ⟨dumpAddr_toNat hbus, s.block.busRead8_eq_byteAt _, printable_iff _⟩

/-- Settles O24: an item holds the bus read of its address, which `RDB` answers too. -/
theorem dumpEqualsSuccessiveReads : Obligations.DumpEqualsSuccessiveReads := by
  refine fun s start last h => ⟨_, _, exec_dmp_ordered (Nat.not_lt.2 h) s, rfl, rfl, fun n hn => ?_⟩
  have hitem := dumpItems_getElem?_of_lt s.block start (Nat.lt_succ_of_le hn)
  exact ⟨_, _, _, hitem, exec_rdb _ s, rfl, rfl⟩

/-- Settles O25: `ceil(n / 16)` rows cover the stream, and a row that exists begins inside it. -/
theorem dumpRowsCutTheStream : Obligations.DumpRowsCutTheStream := by
  refine fun items => ⟨dumpRows_flatten items, dumpRows_length items, fun k row hrow => ?_⟩
  have hstart := lt_length_of_dumpRows_getElem? hrow
  obtain rfl := dumpRows_getElem? hrow
  have hlen := dumpRow_length items k
  exact ⟨hlen, by omega, fun j hj => dumpRow_getElem? items k (by omega)⟩

/-- Settles O26: line `k` is made of the items of row `k`, which begins inside the stream, at the item with the address
`start + 16k`. -/
theorem listingShowsEachRow : Obligations.ListingShowsEachRow := by
  refine fun s start last h =>
    ⟨_, _, exec_dmp_ordered (Nat.not_lt.2 h) s, rfl, listing_length .., fun k line row hline hrow => ?_⟩
  have hstart := lt_length_of_dumpRows_getElem? hrow
  obtain rfl := dumpRows_getElem? hrow
  obtain rfl := listing_getElem? hline
  rw [dumpItems_length] at hstart
  exact ⟨dumpRow_head_of_listingRow_base s.block start hstart, rfl, rfl, List.length_map _,
    listingRow_blanks_of_not_last start, listingRow_blanks_of_short_last start, fun _ _ => listingRow_ascii_getElem?⟩

end Sys2Proof
end

section
/-! SUPPORT. What a load leaves in each cell of `rom` (spec R170 to R172), and the one completion of `INIT` and `CLR`
(spec R175, R176). -/

namespace Sys2Proof.Machine

open Sys2Proof.Claims

/-- A cell that the image reaches, and the array has, holds the image's byte (R170, R172). -/
theorem Block.loaded_rom_getElem? (b : Block) {l : List Byte} {n : Nat} (h : n < min l.length 32768) :
    l[n]? = some ((b.loaded l).rom.read n) := by
  rw [Block.loaded_rom, Memory.read_overlay, imageTaken_getElem? l (by omega), List.getElem?_eq_getElem (by omega)]
  rfl

/-- A cell beyond the image keeps its value (R171). -/
theorem Block.loaded_rom_read_of_le (b : Block) {l : List Byte} {n : Nat} (h : min l.length 32768 ≤ n) :
    (b.loaded l).rom.read n = b.rom.read n := by
  have hbeyond : (imageTaken l).length ≤ n := by simpa [imageTaken, Config.romSize, Nat.min_comm] using h
  rw [Block.loaded_rom, Memory.read_overlay, List.getElem?_eq_none hbeyond]
  rfl

/-- The bus reads a ROM address that the image reaches as the image's byte (R121, R170). -/
theorem Block.busRead8_loaded (b : Block) {l : List Byte} {a : Addr} (ha : inRom a.toNat) (hl : a.toNat < l.length) :
    l[a.toNat]? = some ((b.loaded l).busRead8 a) := by
  unfold Block.busRead8
  rw [Block.readAt_of_cell _ (decodeAddr_of_inRom ha)]
  exact b.loaded_rom_getElem? (Nat.lt_min.2 ⟨hl, Nat.lt_succ_of_le ha⟩)

/-- The two lifecycle operations have one meaning (R175, R176). -/
theorem exec_of_init_or_clr {i : Instr} (hi : i = .init ∨ i = .clr) (s : State) :
    exec i s = complete s s.block.zeroed Response.okay := by
  rcases hi with rfl | rfl
  · rfl
  · rfl

end Sys2Proof.Machine

namespace Sys2Proof

open Sys2Proof.Machine Sys2Proof.Claims

/-- Settles O29: a failed load completes with the report alone, any other with the loaded block. -/
theorem loadStoresTheImage : Obligations.LoadStoresTheImage := by
  refine fun s => ⟨fun hc => ?_, fun bytes hc hne => ?_⟩
  · rcases hc with hc | hc
    · exact exec_load_absent hc
    · exact exec_load_empty hc
  · exact ⟨_, exec_load_image hc hne, fun _ hn => s.block.loaded_rom_getElem? hn,
      fun _ hn => s.block.loaded_rom_read_of_le hn, rfl, rfl, rfl, rfl, rfl, rfl⟩

/-- Settles O31: a full image reaches every ROM address; a load that brings no byte keeps the flag that `INIT` cleared. -/
theorem fullLoadIsReadBack : Obligations.FullLoadIsReadBack := by
  refine ⟨fun s bytes hc hlen => ?_, fun s hc => ?_⟩
  · have hne : bytes ≠ [] := List.ne_nil_of_length_pos (by omega)
    refine ⟨_, exec_load_image hc hne, rfl, fun a ha => ?_⟩
    have hbyte := s.block.busRead8_loaded (l := bytes) ha (by omega)
    exact ⟨_, _, _, hbyte, exec_rdb a _, rfl, rfl⟩
  · exact ⟨_, _, _, exec_init s, exec_load_absent hc, rfl, rfl, rfl⟩

/-- Settles O27: the zeroed block lists no cell, so every cell reads the reset value. -/
theorem initAndClearZeroEverything : Obligations.InitAndClearZeroEverything := fun s =>
  ⟨_, exec_of_init_or_clr (.inl rfl) s, exec_of_init_or_clr (.inr rfl) s,
    fun _ _ => rfl, fun _ _ => rfl, fun _ _ => rfl, rfl, rfl, rfl, rfl⟩

/-- Settles O28: the block that is left does not depend on the block before, so zeroing it again changes nothing. -/
theorem initAndClearAreIdempotent : Obligations.InitAndClearAreIdempotent := fun s _ _ hi hj =>
  ⟨_, exec_of_init_or_clr hi s, exec_of_init_or_clr hj _⟩

end Sys2Proof
end

section
/-! SUPPORT. What each access path leaves and what it depends on (spec R201): one lemma per path for how its operations
complete, then the rights of all paths as two predicates on the states before and after. -/

namespace Sys2Proof.Machine

/-- The two operations of the lifecycle path (R201). -/
theorem pathOf_eq_lifecycle_iff (i : Instr) : pathOf i = .lifecycle ↔ i = .init ∨ i = .clr := by
  cases i <;> simp [pathOf]

/-- The one operation of the load path (R201). -/
theorem pathOf_eq_load_iff (i : Instr) : pathOf i = .load ↔ i = .load := by
  cases i <;> simp [pathOf]

section

variable {i : Instr}

/-- An operation without a path leaves the block, and its response is fixed by the operation (R80, R101, R150, R151). -/
theorem exec_of_noAccess (hp : pathOf i = .noAccess) : ∃ r, ∀ s, exec i s = complete s s.block r := by
  cases i with
  | xlt | vld | rgn | reservedB | reservedC | reservedD | reservedE | reservedF => exact ⟨_, fun _ => rfl⟩
  | _ => cases hp

theorem exec_of_lifecycle (hp : pathOf i = .lifecycle) (s : State) :
    exec i s = complete s s.block.zeroed Response.okay :=
  exec_of_init_or_clr ((pathOf_eq_lifecycle_iff i).1 hp) s

/-- An operation of the bus path leaves `rom` and `romLoaded` (R49, R201). -/
theorem exec_of_bus (hp : pathOf i = .bus) (s : State) : ∃ b r, exec i s = complete s b r ∧
    b.rom = s.block.rom ∧ b.romLoaded = s.block.romLoaded := by
  obtain ⟨b, r, he, hb⟩ := exec_completes i s
  refine ⟨b, r, he, ?_⟩
  rcases hb with rfl | ⟨a, v, -, rfl⟩ | ⟨a, v, -, rfl⟩ | ⟨rfl | rfl, -⟩ | ⟨l, rfl, -⟩
  · exact ⟨rfl, rfl⟩
  · exact ⟨Block.writeAt_rom .., Block.writeAt_romLoaded ..⟩
  · exact ⟨(Block.writeAt_rom ..).trans (Block.writeAt_rom ..),
      (Block.writeAt_romLoaded ..).trans (Block.writeAt_romLoaded ..)⟩
  all_goals cases hp

/-- An operation of the bus path does not look at `cart` (R201). -/
theorem exec_bus_ignores_cart (hp : pathOf i = .bus) (s : State) (c : Cart) :
    ∃ b r, exec i s = complete s b r ∧ exec i { s with cart := c } = complete { s with cart := c } b r := by
  cases i with
  | rdb | wrb | rdw | wrw => exact ⟨_, _, rfl, rfl⟩
  | dmp a b =>
    by_cases h : b.toNat < a.toNat
    · exact ⟨_, _, exec_dmp_reversed h _, exec_dmp_reversed h _⟩
    · exact ⟨_, _, exec_dmp_ordered h _, exec_dmp_ordered h _⟩
  | _ => cases hp

end

/-- The two ways a load completes, chosen by `cart` alone: with the report and the block as it was, or with the image
stored (R170; D15). -/
theorem exec_load_cases (c : Cart) :
    ((∀ l, c = .image l → l = []) ∧
      ∀ s : State, s.cart = c → exec .load s = complete s s.block loadFailed) ∨
    ∃ l, c = .image l ∧ l ≠ [] ∧
      ∀ s : State, s.cart = c → exec .load s = complete s (s.block.loaded l) Response.okay := by
  cases c with
  | absent => exact .inl ⟨nofun, fun _ => exec_load_absent⟩
  | image l =>
    by_cases hl : l = []
    · subst hl
      exact .inl ⟨fun _ h => (Cart.image.inj h).symm, fun _ => exec_load_empty⟩
    · exact .inr ⟨l, rfl, hl, fun _ h => exec_load_image h hl⟩

/-- Every cell `0x00` and `romLoaded` 0: what the lifecycle path leaves (R175, R201). -/
def Block.IsZero (b : Block) : Prop := (∀ k o, (b.bank k).read o = 0#8) ∧ b.romLoaded = false

theorem Block.isZero_zeroed (b : Block) : b.zeroed.IsZero := by
  refine ⟨fun k o => ?_, rfl⟩
  rw [Block.zeroed_bank]
  rfl

/-- The write rights of R201: what the path `p` may have changed from `s` to `t`. -/
def Path.WritesWithinRights (p : Path) (s t : State) : Prop :=
  (∀ k, p.mayWrite k = false → t.block.bank k = s.block.bank k) ∧
  (p = .lifecycle → t.block.IsZero) ∧
  (p = .load → t.block.romLoaded = true ∨ t.block = s.block) ∧
  (∀ bytes, p = .load → s.cart = .image bytes → ∀ n, min bytes.length 32768 ≤ n →
    t.block.rom.read n = s.block.rom.read n) ∧
  (p = .bus ∨ p = .noAccess → t.block.romLoaded = s.block.romLoaded)

/-- The read rights of R201: in what two completions `t` and `t'` of one operation on the path `p`, the first from a state
with `c` on `cart`, must agree. -/
def Path.ReadsWithinRights (p : Path) (c : Cart) (t t' : State) : Prop :=
  t.rsp = t'.rsp ∧
  (p = .bus → ∀ k, t.block.bank k = t'.block.bank k) ∧
  (p = .lifecycle → t.block = t'.block) ∧
  (∀ bytes, p = .load → c = .image bytes →
    (∀ n, n < min bytes.length 32768 → t.block.rom.read n = t'.block.rom.read n) ∧
    (bytes ≠ [] → t.block.romLoaded = t'.block.romLoaded))

/-- Every operation completes within the write rights of its path. -/
theorem exec_writesWithinRights (i : Instr) (s : State) :
    ∃ t, exec i s = .next t ∧ (pathOf i).WritesWithinRights s t := by
  cases hp : pathOf i with
  | bus =>
    obtain ⟨b, r, he, hrom, hflag⟩ := exec_of_bus hp s
    refine ⟨_, he, fun k hk => ?_, nofun, nofun, nofun, fun _ => hflag⟩
    cases k with
    | rom => exact hrom
    | vram | wram => cases hk
  | noAccess =>
    obtain ⟨r, he⟩ := exec_of_noAccess hp
    exact ⟨_, he s, fun _ _ => rfl, nofun, nofun, nofun, fun _ => rfl⟩
  | lifecycle =>
    exact ⟨_, exec_of_lifecycle hp s, nofun, fun _ => s.block.isZero_zeroed, nofun, nofun, nofun⟩
  | load =>
    obtain rfl := (pathOf_eq_load_iff i).1 hp
    rcases exec_load_cases s.cart with ⟨-, he⟩ | ⟨l, hc, -, he⟩
    · exact ⟨_, he s rfl, fun _ _ => rfl, nofun, fun _ => .inr rfl, fun _ _ _ _ _ => rfl, nofun⟩
    · refine ⟨_, he s rfl, fun k hk => ?_, nofun, fun _ => .inl rfl, fun bytes _ hbytes n hn => ?_, nofun⟩
      · cases k with
        | rom => cases hk
        | vram | wram => rfl
      · obtain rfl := Cart.image.inj (hc.symm.trans hbytes)
        exact s.block.loaded_rom_read_of_le hn

/-- States that agree in what the path may read answer alike, and are left alike where the path determines what is left. -/
theorem exec_readsWithinRights (i : Instr) (s s' : State)
    (hbank : ∀ k, (pathOf i).mayRead k = true → s'.block.bank k = s.block.bank k)
    (hcart : pathOf i = .load → s'.cart = s.cart) :
    ∃ t t', exec i s = .next t ∧ exec i s' = .next t' ∧ (pathOf i).ReadsWithinRights s.cart t t' := by
  cases hp : pathOf i with
  | bus =>
    rw [hp] at hbank
    obtain ⟨t, u, ht, hu, hrsp, hleft⟩ :=
      exec_banks_congr i (s' := { s' with cart := s.cart }) (fun k => (hbank k rfl).symm) rfl
    obtain ⟨b, r, hs', hu'⟩ := exec_bus_ignores_cart hp s' s.cart
    cases hu.symm.trans hu'
    exact ⟨_, _, ht, hs', hrsp, fun _ => hleft, nofun, nofun⟩
  | noAccess =>
    obtain ⟨r, he⟩ := exec_of_noAccess hp
    exact ⟨_, _, he s, he s', rfl, nofun, nofun, nofun⟩
  | lifecycle =>
    exact ⟨_, _, exec_of_lifecycle hp s, exec_of_lifecycle hp s', rfl, nofun, fun _ => rfl, nofun⟩
  | load =>
    obtain rfl := (pathOf_eq_load_iff i).1 hp
    rcases exec_load_cases s.cart with ⟨hempty, he⟩ | ⟨l, hc, -, he⟩
    · refine ⟨_, _, he s rfl, he s' (hcart hp), rfl, nofun, nofun, fun bytes _ hbytes => ?_⟩
      obtain rfl := hempty bytes hbytes
      exact ⟨fun n hn => absurd hn (by simp), fun hne => absurd rfl hne⟩
    · refine ⟨_, _, he s rfl, he s' (hcart hp), rfl, nofun, nofun,
        fun bytes _ hbytes => ⟨fun n hn => ?_, fun _ => rfl⟩⟩
      obtain rfl := Cart.image.inj (hc.symm.trans hbytes)
      exact Option.some.inj ((s.block.loaded_rom_getElem? hn).symm.trans (s'.block.loaded_rom_getElem? hn))

/-- A step that takes something on the lifecycle path leaves the reset block, whatever the state (R175, R220). -/
theorem step_of_lifecycle {s : State} {x : Input} {rest : List Input} (h : s.inputs = x :: rest)
    (hx : pathOfInput x = .lifecycle) : ∃ t, step s = .next t ∧ t.block = Block.reset := by
  cases x with
  | rst => exact ⟨_, step_rst h, s.block.zeroed_eq_reset⟩
  | op w c => exact ⟨_, (step_op h).trans (exec_of_lifecycle hx _), s.block.zeroed_eq_reset⟩

end Sys2Proof.Machine

namespace Sys2Proof

open Sys2Proof.Machine

/-- Settles O36: the operations keep the rights path by path, and a lifecycle step always leaves the reset block. -/
theorem pathsKeepTheirRights : Obligations.PathsKeepTheirRights := by
  refine ⟨exec_writesWithinRights, exec_readsWithinRights, fun s s' x x' rest rest' h h' hx hx' => ?_⟩
  obtain ⟨t, hstep, ht⟩ := step_of_lifecycle h hx
  obtain ⟨t', hstep', ht'⟩ := step_of_lifecycle h' hx'
  have hzero : t.block.IsZero := ht ▸ Block.reset.isZero_zeroed
  exact ⟨t, t', hstep, hstep', ht.trans ht'.symm, hzero⟩

end Sys2Proof
end

section
/-! SUPPORT. When a malformed dump is reported and what counts as a broken duty (spec R161, R195, R225; log 7), and that
steps and runs complete (spec R231; logs 1, 2). -/

namespace Sys2Proof.Machine

open Sys2Proof.Claims

/-- BAD_DUMP is the report of a dump with `start > end` and of nothing else (R161, R195). -/
theorem badDump_iff_of_exec {i : Instr} {s : State} {b : Block} {r : Response} (hexec : exec i s = complete s b r)
    (hr : ReportOwned i r) : r.err = .badDump ↔ ∃ start last, i = .dmp start last ∧ last.toNat < start.toNat := by
  constructor
  · intro herr
    simp only [ReportOwned, herr] at hr
    obtain ⟨-, -, start, last, rfl⟩ := hr
    refine ⟨start, last, rfl, ?_⟩
    by_contra hordered
    cases hexec.symm.trans (exec_dmp_ordered hordered s)
    cases herr
  · rintro ⟨start, last, rfl, hreversed⟩
    cases hexec.symm.trans (exec_dmp_reversed hreversed s)
    rfl

/-- What one request can break: the duty of R225, and that no reserved code is presented (log 7). -/
theorem dutyKept_op_eq_false_iff (w : ReqWord) (c : Cart) : dutyKept (.op w c) = false ↔
    (∃ start last, decode w = .dmp start last ∧ last.toNat < start.toNat) ∨ isReserved (decode w) := by
  simp only [dutyKept]
  cases decode w with
  | dmp => simp [isReserved]
  | _ => simp [isReserved, Instr.wellFormed]

/-- A step answers on every state, and the oldest presentation, where there is one, is gone (logs 1, 2). -/
theorem step_completes (s : State) : ∃ t, step s = .next t ∧ t.inputs = s.inputs.tail := by
  cases hin : s.inputs with
  | nil => exact ⟨idle s, step_nil hin, hin⟩
  | cons x rest =>
    obtain ⟨t, hstep, ht, -⟩ := step_followsRules hin
    exact ⟨t, hstep, ht⟩

theorem runsSafely_from_every_state (k : Nat) (s : State) : runsSafely k s := by
  induction k generalizing s with
  | zero => exact ⟨s, rfl⟩
  | succ k ih =>
    obtain ⟨t, hstep, -⟩ := step_completes s
    obtain ⟨u, hrun⟩ := ih t
    exact ⟨u, (run_succ_of_step hstep).trans hrun⟩

end Sys2Proof.Machine

namespace Sys2Proof

open Sys2Proof.Machine Sys2Proof.Claims

/-- Settles O41: each of the two reports is met exactly by its half of what counts as broken. -/
theorem malformedDumpAndReservedCodeAreReported : Obligations.MalformedDumpAndReservedCodeAreReported := by
  intro s w c rest h
  obtain ⟨b, r, hexec, hr⟩ := exec_reportOwned (decode w) { s with inputs := rest, cart := c }
  refine ⟨_, r, (step_op h).trans hexec, rfl, ?_⟩
  rw [dutyKept_op_eq_false_iff, badDump_iff_of_exec hexec hr, hr.illegalOp_iff]

/-- Settles O46: a step always answers, so a run of any length goes on. -/
theorem everyStepAndRunCompletes : Obligations.EveryStepAndRunCompletes := ⟨step_completes, runsSafely_from_every_state⟩

end Sys2Proof
end

section
/-! SUPPORT. What a bus write leaves in each part of the block (spec R122), and the wrap of a word at the top of the address
space (spec R47, R120). -/

namespace Sys2Proof.Machine

open Sys2Proof.Claims

/-- A bus write outside VRAM and WRAM stores nothing. -/
theorem Block.busWrite8_of_not_ram (b : Block) {a : Addr} (v : Byte) (hv : ¬ inVram a.toNat) (hw : ¬ inWram a.toNat) :
    (b.busWrite8 a v).1 = b :=
  (b.busWrite8_fst_eq_storeAt a v).trans ((if_neg hv).trans (if_neg hw))

theorem Block.busWrite8_vram (b : Block) {a : Addr} (v : Byte) (hv : ¬ inVram a.toNat) :
    (b.busWrite8 a v).1.vram = b.vram := by
  by_cases hw : inWram a.toNat
  · rw [Block.busWrite8, b.writeAt_of_cell v (by decide) (decodeAddr_of_inWram hw)]
    rfl
  · rw [b.busWrite8_of_not_ram v hv hw]

theorem Block.busWrite8_wram (b : Block) {a : Addr} (v : Byte) (hw : ¬ inWram a.toNat) :
    (b.busWrite8 a v).1.wram = b.wram := by
  by_cases hv : inVram a.toNat
  · rw [Block.busWrite8, b.writeAt_of_cell v (by decide) (decodeAddr_of_inVram hv)]
    rfl
  · rw [b.busWrite8_of_not_ram v hv hw]

/-- An address outside VRAM and WRAM reads the same after any bus write, one to itself included. -/
theorem Block.busRead8_busWrite8_of_not_ram (b : Block) (a : Addr) {c : Addr} (v : Byte) (hv : ¬ inVram c.toNat)
    (hw : ¬ inWram c.toNat) : (b.busWrite8 a v).1.busRead8 c = b.busRead8 c := by
  by_cases hca : c = a
  · subst hca
    rw [b.busWrite8_of_not_ram v hv hw]
  · exact b.busRead8_busWrite8_ne v hca

end Sys2Proof.Machine

namespace Sys2Proof

open Sys2Proof.Machine

/-- Settles O14: the completion of `WRB` leaves the block after one bus write. -/
theorem wrbFrame : Obligations.WrbFrame := fun s a v =>
  ⟨_, exec_wrb a v s, fun _ => s.block.busRead8_busWrite8_ne v, s.block.busWrite8_of_not_ram v, s.block.busWrite8_vram v,
    s.block.busWrite8_wram v, s.block.writeAt_rom _ v, s.block.writeAt_romLoaded _ v, rfl, rfl⟩

/-- Settles O15: each of the two bus writes of `WRW` keeps what the frame names. -/
theorem wrwFrame : Obligations.WrwFrame := by
  intro s a v
  refine ⟨_, exec_wrw a v s, fun c hlow hhigh => ?_, fun c hv hw => ?_, ?_, ?_, rfl, rfl⟩
  · exact (Block.busRead8_busWrite8_ne _ _ hhigh).trans (Block.busRead8_busWrite8_ne _ _ hlow)
  · exact (Block.busRead8_busWrite8_of_not_ram _ _ _ hv hw).trans (Block.busRead8_busWrite8_of_not_ram _ _ _ hv hw)
  · exact (Block.writeAt_rom ..).trans (Block.writeAt_rom ..)
  · exact (Block.writeAt_romLoaded ..).trans (Block.writeAt_romLoaded ..)

/-- Settles O13: the next address after `0xFFFF` is `0x0000`, so lane 0 is unmapped and lane 1 is in ROM. -/
theorem wordAtTopWrapsToZero : Obligations.WordAtTopWrapsToZero := by
  intro s v
  have hwrap : (0xFFFF#16 + 1#16 : Addr) = 0x0000#16 := by decide
  constructor
  · rw [rdwJoinsTwoIndependentBytes, hwrap]
    rfl
  · rw [wrwWritesTwoIndependentBytes, hwrap]
    rfl

end Sys2Proof
end

section
/-! SUPPORT. The loop of R170 against the one-shot store of the model, and which operations leave `romLoaded` (spec R26). -/

namespace Sys2Proof.Machine

open Sys2Proof.Claims

/-- After the loop a cell that it reached holds its byte, and any other what it held. -/
theorem Memory.read_storeUpward (m : Memory) (o : Nat) (l : List Byte) (p : Nat) :
    (storeUpward m o l).read p = if o ≤ p then l[p - o]?.getD (m.read p) else m.read p := by
  induction l generalizing m o with
  | nil => simp [storeUpward]
  | cons v l ih =>
    rw [storeUpward, ih, Memory.read_write]
    rcases Nat.lt_trichotomy p o with h | rfl | h
    · simp only [if_neg (show ¬ o + 1 ≤ p by omega), if_neg (Nat.ne_of_lt h), if_neg (Nat.not_le.2 h)]
    · simp
    · have hi : p - o = p - (o + 1) + 1 := by omega
      simp only [hi, List.getElem?_cons_succ, if_pos (show o + 1 ≤ p from h), if_pos (Nat.le_of_lt h),
        if_neg (Nat.ne_of_gt h)]

/-- The loop keeps the canonical form when its last byte is inside the array. -/
theorem Memory.wf_storeUpward {size : Nat} {m : Memory} (h : m.wf size) {o : Nat} {l : List Byte}
    (hl : o + l.length ≤ size) : (storeUpward m o l).wf size := by
  induction l generalizing m o with
  | nil => exact h
  | cons v l ih =>
    rw [List.length_cons] at hl
    exact ih (Memory.wf_write h (by omega) v) (by omega)

/-- Storing bytes in one shot is the loop over them, as lists: both results are canonical and hold the same cells. -/
theorem Memory.overlay_eq_storeUpward {size : Nat} {m : Memory} (h : m.wf size) {l : List Byte} (hl : l.length ≤ size) :
    m.overlay l = storeUpward m 0 l :=
  Memory.ext_of_wf (Memory.wf_overlay h hl) (Memory.wf_storeUpward h (by omega)) fun p => by
    rw [Memory.read_overlay, Memory.read_storeUpward, if_pos (Nat.zero_le p), Nat.sub_zero]

/-- The operations that can change `romLoaded` are not on the bus path and not without a path (R26, R201). -/
theorem ne_load_init_clr_of_pathOf {i : Instr} (h : pathOf i = .bus ∨ pathOf i = .noAccess) :
    i ≠ .load ∧ i ≠ .init ∧ i ≠ .clr := by
  refine ⟨?_, ?_, ?_⟩ <;> rintro rfl <;> simp [pathOf] at h

end Sys2Proof.Machine

namespace Sys2Proof

open Sys2Proof.Machine

/-- Settles O30: the image is cut to the size of `rom`, so the loop stays inside the array. -/
theorem loadEqualsTheLoop : Obligations.LoadEqualsTheLoop := by
  intro s bytes hs hc hne
  have hrom : s.block.rom.wf Config.romSize := hs.1
  exact ⟨_, exec_load_image hc hne, Memory.overlay_eq_storeUpward hrom (imageTaken_length_le bytes)⟩

/-- Settles O32: an operation of the bus path, or without a path, keeps the flag, the lifecycle path clears it, and a load
either fails and keeps it or answers `ok` and sets it. -/
theorem onlyLoadSetsRomLoaded : Obligations.OnlyLoadSetsRomLoaded := by
  intro i s
  cases hp : pathOf i with
  | bus =>
    obtain ⟨b, r, he, -, hflag⟩ := exec_of_bus hp s
    exact ⟨_, r, he, rfl, by simp [hflag, ne_load_init_clr_of_pathOf (.inl hp)]⟩
  | noAccess =>
    obtain ⟨r, he⟩ := exec_of_noAccess hp
    exact ⟨_, r, he s, rfl, by simp [ne_load_init_clr_of_pathOf (.inr hp)]⟩
  | lifecycle =>
    refine ⟨_, _, exec_of_lifecycle hp s, rfl, ?_⟩
    rcases (pathOf_eq_lifecycle_iff i).1 hp with rfl | rfl <;> simp
  | load =>
    obtain rfl := (pathOf_eq_load_iff i).1 hp
    rcases exec_load_cases s.cart with ⟨-, he⟩ | ⟨l, -, -, he⟩
    · exact ⟨_, loadFailed, he s rfl, rfl, by simp [loadFailed]⟩
    · exact ⟨_, Response.okay, he s rfl, rfl, by simp [Response.okay]⟩

end Sys2Proof
end

section
/-! SUPPORT. Written-out request words (spec R72 to R74), the step on each thing that can be presented (spec R52, R220;
logs 1, 2, 3), and the invariant at reset (spec R32). -/

namespace Sys2Proof

open Sys2Proof.Machine

/-- Settles O42, by evaluating the decoder on each word. -/
theorem requestWordsDecodeAsWritten : Obligations.RequestWordsDecodeAsWritten := by
  unfold Obligations.RequestWordsDecodeAsWritten
  decide

/-- Settles O43. -/
theorem stepRunsTheDecodedOperation : Obligations.StepRunsTheDecodedOperation := fun _ _ _ _ => step_op

/-- Settles O44: the pin leaves the zeroed block, which is the reset block. -/
theorem resetPinAndIdleStep : Obligations.ResetPinAndIdleStep := ⟨fun _ _ => step_rst, fun _ => step_nil⟩

/-- Settles O47: the reset block is a zeroed block, which lists no cell. -/
theorem resetHasInvariant : Obligations.ResetHasInvariant := Block.reset.wf_zeroed

end Sys2Proof
end
